-- ==== Sys2Proof/Word.lean ====
section
/-! DEFINITION. The word types of the CHIP-8 fetch unit (00_scope.md R2, R5; 10_state.md R10, R12, R13). -/

namespace Sys2Proof

/-- A memory byte or a general register: 8 bits, unsigned (R5, R10). -/
abbrev Byte := BitVec 8

/-- An instruction word, a 16-bit register (PC, I, a stack entry) or a 16-bit address value (R6 'Address', R12, R13). -/
abbrev Word := BitVec 16

/-- The `nnn` field: a 12-bit address (R61). -/
abbrev Addr12 := BitVec 12

/-- A 4-bit field of the instruction word (R6 'Nibble', R61). -/
abbrev Nibble := BitVec 4

/-- The number of a general register: a nibble is always 0..15 (R10, R63). -/
abbrev Reg := Fin 16

end Sys2Proof
end

