-- ==== Sys2Proof/Machine/Flags.lean ====
section
/-! DEFINITION. Every flag computation the spec gives (10_state.md R24): what the six flag-writing instructions put in VF. -/

namespace Sys2Proof.Machine

/-- A flag write stores 0x00 or 0x01, never anything else (R24). -/
def flagByte (c : Bool) : Byte := if c then 0x01 else 0x00

/-- Carry of `a + b`: the sum is at least 256 (R120). -/
def carry (a b : Byte) : Bool := 256 ≤ a.toNat + b.toNat

/-- No borrow in `a - b`: `a >= b`, with equality (R121, R122). -/
def noBorrow (a b : Byte) : Bool := b.toNat ≤ a.toNat

/-- The bit a right shift by one shifts out: the least significant (R123). -/
def shiftedOutRight (a : Byte) : Bool := a.getLsbD 0

/-- The bit a left shift by one shifts out: the most significant (R124). -/
def shiftedOutLeft (a : Byte) : Bool := a.getLsbD 7

end Sys2Proof.Machine
end

