-- ==== Sys2Proof/Config.lean ====
section
/-! DEFINITION. What the platform fixes (00_scope.md R3) and the free values of the input pins. -/

namespace Sys2Proof

/-- What the words 0x0000..0x0FFF other than 0x00E0 and 0x00EE do (R3, R69, D5). -/
inductive SysPolicy where
  /-- They are SYS, a no-operation; the default. -/
  | nop
  /-- They raise InvalidInstruction at decode. -/
  | invalid
  deriving DecidableEq, Repr

/-- The platform parameters of R3 that change what a step does. `F_CLK` and `STEP_RATE` are timing and no rule
depends on them (R3, R208). -/
structure Config where
  /-- `SYS_POLICY` (D5). -/
  sysPolicy : SysPolicy
  /-- `KEYS_PRESENT` (D7): whether a keypad drives the `keys` input. -/
  keysPresent : Bool
  deriving DecidableEq, Repr

/-- The defaults of R3: SYS is a no-operation and no keypad is attached. -/
def Config.default : Config where
  sysPolicy := .nop
  keysPresent := false

/-- FREE VALUE (log 3). The `rnd` input at the clock edge with this number, where the script names none: 'a free
draw under no law' (R22, R125, U8). It has no body to prove anything from. -/
opaque Config.freeRnd : Nat → Byte

/-- FREE VALUE (log 4). The `keys` input at the clock edge with this number, where the script names none: 'a free
input of the step when KEYS_PRESENT = true' (R166). -/
opaque Config.freeKeys : Nat → Word

/-- FREE VALUE (log 22). How many clock edges without `tick60` lie before the tick with this number, where the script names none:
any number, in no fixed relation to the steps, but a finite one, so that ticks come infinitely often (R187, R209). -/
opaque Config.freeTickGap : Nat → Nat

/-- FREE VALUE (log 22). The same for the `step` strobe, whose rate is open (R86, R208). -/
opaque Config.freeStepGap : Nat → Nat

end Sys2Proof
end

