-- ==== Sys2Proof/Syntax.lean ====
section
/-! DEFINITION. The 35 instructions of the opcode map (30_encoding.md R65, R71), and what decoding can answer (R64). -/

namespace Sys2Proof

/-- A decoded instruction: 'a pure value with no behavior' (R71). `x` and `y` are register numbers, `kk` an 8-bit
immediate, `nnn` a 12-bit address, `n` a row count (R61). -/
inductive Instr where
  /-- 0nnn `SYS nnn` (R108). -/
  | sys (nnn : Addr12)
  /-- 00E0 `CLS` (R151). -/
  | cls
  /-- 00EE `RET` (R102). -/
  | ret
  /-- 1nnn `JP nnn` (R100). -/
  | jp (nnn : Addr12)
  /-- 2nnn `CALL nnn` (R101). -/
  | call (nnn : Addr12)
  /-- 3xkk `SE Vx, kk` (R104). -/
  | seByte (x : Reg) (kk : Byte)
  /-- 4xkk `SNE Vx, kk` (R105). -/
  | sneByte (x : Reg) (kk : Byte)
  /-- 5xy0 `SE Vx, Vy` (R106). -/
  | seReg (x y : Reg)
  /-- 6xkk `LD Vx, kk` (R126). -/
  | ldByte (x : Reg) (kk : Byte)
  /-- 7xkk `ADD Vx, kk` (R127). -/
  | addByte (x : Reg) (kk : Byte)
  /-- 8xy0 `LD Vx, Vy` (R128). -/
  | ldReg (x y : Reg)
  /-- 8xy1 `OR Vx, Vy` (R129). -/
  | orReg (x y : Reg)
  /-- 8xy2 `AND Vx, Vy` (R130). -/
  | andReg (x y : Reg)
  /-- 8xy3 `XOR Vx, Vy` (R131). -/
  | xorReg (x y : Reg)
  /-- 8xy4 `ADD Vx, Vy` (R120). -/
  | addReg (x y : Reg)
  /-- 8xy5 `SUB Vx, Vy` (R121). -/
  | subReg (x y : Reg)
  /-- 8xy6 `SHR Vx` (R123). The word's `y` field is kept in the term and ignored by the meaning (R70, log 16). -/
  | shr (x y : Reg)
  /-- 8xy7 `SUBN Vx, Vy` (R122). -/
  | subnReg (x y : Reg)
  /-- 8xyE `SHL Vx` (R124). The word's `y` field is kept in the term and ignored by the meaning (R70, log 16). -/
  | shl (x y : Reg)
  /-- 9xy0 `SNE Vx, Vy` (R107). -/
  | sneReg (x y : Reg)
  /-- Annn `LD I, nnn` (R140). -/
  | ldI (nnn : Addr12)
  /-- Bnnn `JP V0, nnn` (R103). -/
  | jpV0 (nnn : Addr12)
  /-- Cxkk `RND Vx, kk` (R125). -/
  | rnd (x : Reg) (kk : Byte)
  /-- Dxyn `DRW Vx, Vy, n` (R150). -/
  | drw (x y : Reg) (n : Fin 16)
  /-- Ex9E `SKP Vx` (R163). -/
  | skp (x : Reg)
  /-- ExA1 `SKNP Vx` (R164). -/
  | sknp (x : Reg)
  /-- Fx07 `LD Vx, DT` (R160). -/
  | ldVxDT (x : Reg)
  /-- Fx0A `LD Vx, K` (R165). -/
  | ldVxK (x : Reg)
  /-- Fx15 `LD DT, Vx` (R161). -/
  | ldDTVx (x : Reg)
  /-- Fx18 `LD ST, Vx` (R162). -/
  | ldSTVx (x : Reg)
  /-- Fx1E `ADD I, Vx` (R141). -/
  | addI (x : Reg)
  /-- Fx29 `LD F, Vx` (R142). -/
  | ldF (x : Reg)
  /-- Fx33 `LD B, Vx` (R143). -/
  | ldB (x : Reg)
  /-- Fx55 `LD [I], Vx` (R144). -/
  | storeRegs (x : Reg)
  /-- Fx65 `LD Vx, [I]` (R145). -/
  | loadRegs (x : Reg)
  deriving DecidableEq, Repr

/-- Why decoding answers no instruction. -/
inductive DecodeError where
  /-- The word matches no row of the opcode map: `InvalidInstruction(w)` (R64, R66). -/
  | invalidInstruction (word : Word)
  /-- Fewer than the two bytes of a word were given (R60); a fetch never gives so few. -/
  | truncated (bytes : List Byte)
  deriving DecidableEq, Repr

end Sys2Proof
end

