-- ==== Sys2Proof/Decode.lean ====
section
/-! DEFINITION. The decoder (30_encoding.md R61, R64), the encoder written from the same opcode map (R65), and the map's
fixed bits. -/

namespace Sys2Proof

/-! ### Fields of a word (R61) -/

/-- A 4-bit field read as a register number (R63: 'x and y select registers directly'). -/
def regOfNibble (b : Nibble) : Reg := ⟨b.toNat, b.isLt⟩

/-- The 4-bit field that selects a register. -/
def nibbleOfReg (x : Reg) : Nibble := BitVec.ofNat 4 x.val

/-- `op`, bits 15..12. -/
def fieldOp (w : Word) : Nibble := w.extractLsb' 12 4

/-- `x`, bits 11..8. -/
def fieldX (w : Word) : Reg := regOfNibble (w.extractLsb' 8 4)

/-- `y`, bits 7..4. -/
def fieldY (w : Word) : Reg := regOfNibble (w.extractLsb' 4 4)

/-- `n`, bits 3..0, as 4 bits. -/
def fieldN (w : Word) : Nibble := w.extractLsb' 0 4

/-- `kk`, bits 7..0. -/
def fieldKk (w : Word) : Byte := w.extractLsb' 0 8

/-- `nnn`, bits 11..0. -/
def fieldNnn (w : Word) : Addr12 := w.extractLsb' 0 12

/-- The word of two bytes in memory order: the byte at the lower address is bits 15..8 (R57, R60). -/
def wordOfBytes (hi lo : Byte) : Word := hi ++ lo

/-- Bits 15..8 of a word: the byte at the lower address (R57). -/
def hiByte (w : Word) : Byte := w.extractLsb' 8 8

/-- Bits 7..0 of a word: the byte at the higher address (R57). -/
def loByte (w : Word) : Byte := w.extractLsb' 0 8

/-! ### The decode function (R64) -/

/-- Family 0x0: the whole word is tried against CLS and RET, then the policy decides (R69, D5). -/
def decodeFamily0 (p : SysPolicy) (w : Word) : Except DecodeError Instr :=
  if w = 0x00E0#16 then .ok .cls
  else if w = 0x00EE#16 then .ok .ret
  else match p with
    | .nop => .ok (.sys (fieldNnn w))
    | .invalid => .error (.invalidInstruction w)

/-- Family 0x8, selected by the trailing nibble (R64, R67). -/
def decodeFamily8 (w : Word) : Except DecodeError Instr :=
  match (fieldN w).toNat with
  | 0x0 => .ok (.ldReg (fieldX w) (fieldY w))
  | 0x1 => .ok (.orReg (fieldX w) (fieldY w))
  | 0x2 => .ok (.andReg (fieldX w) (fieldY w))
  | 0x3 => .ok (.xorReg (fieldX w) (fieldY w))
  | 0x4 => .ok (.addReg (fieldX w) (fieldY w))
  | 0x5 => .ok (.subReg (fieldX w) (fieldY w))
  | 0x6 => .ok (.shr (fieldX w) (fieldY w))
  | 0x7 => .ok (.subnReg (fieldX w) (fieldY w))
  | 0xE => .ok (.shl (fieldX w) (fieldY w))
  | _ => .error (.invalidInstruction w)

/-- Family 0xE, selected by the trailing byte (R64). -/
def decodeFamilyE (w : Word) : Except DecodeError Instr :=
  if fieldKk w = 0x9E#8 then .ok (.skp (fieldX w))
  else if fieldKk w = 0xA1#8 then .ok (.sknp (fieldX w))
  else .error (.invalidInstruction w)

/-- Family 0xF, selected by the trailing byte (R64). -/
def decodeFamilyF (w : Word) : Except DecodeError Instr :=
  if fieldKk w = 0x07#8 then .ok (.ldVxDT (fieldX w))
  else if fieldKk w = 0x0A#8 then .ok (.ldVxK (fieldX w))
  else if fieldKk w = 0x15#8 then .ok (.ldDTVx (fieldX w))
  else if fieldKk w = 0x18#8 then .ok (.ldSTVx (fieldX w))
  else if fieldKk w = 0x1E#8 then .ok (.addI (fieldX w))
  else if fieldKk w = 0x29#8 then .ok (.ldF (fieldX w))
  else if fieldKk w = 0x33#8 then .ok (.ldB (fieldX w))
  else if fieldKk w = 0x55#8 then .ok (.storeRegs (fieldX w))
  else if fieldKk w = 0x65#8 then .ok (.loadRegs (fieldX w))
  else .error (.invalidInstruction w)

/-- `Decode(w)`: a pure, total function of the word and the platform's SYS_POLICY (R64). -/
def decode (p : SysPolicy) (w : Word) : Except DecodeError Instr :=
  match (fieldOp w).toNat with
  | 0x0 => decodeFamily0 p w
  | 0x1 => .ok (.jp (fieldNnn w))
  | 0x2 => .ok (.call (fieldNnn w))
  | 0x3 => .ok (.seByte (fieldX w) (fieldKk w))
  | 0x4 => .ok (.sneByte (fieldX w) (fieldKk w))
  | 0x5 => if fieldN w = 0x0#4 then .ok (.seReg (fieldX w) (fieldY w)) else .error (.invalidInstruction w)
  | 0x6 => .ok (.ldByte (fieldX w) (fieldKk w))
  | 0x7 => .ok (.addByte (fieldX w) (fieldKk w))
  | 0x8 => decodeFamily8 w
  | 0x9 => if fieldN w = 0x0#4 then .ok (.sneReg (fieldX w) (fieldY w)) else .error (.invalidInstruction w)
  | 0xA => .ok (.ldI (fieldNnn w))
  | 0xB => .ok (.jpV0 (fieldNnn w))
  | 0xC => .ok (.rnd (fieldX w) (fieldKk w))
  | 0xD => .ok (.drw (fieldX w) (fieldY w) (regOfNibble (fieldN w)))
  | 0xE => decodeFamilyE w
  | _ => decodeFamilyF w

/-- Decoding at the front of a byte sequence: one big-endian word, and the bytes after it (R57, R60). -/
def decodeBytes (p : SysPolicy) : List Byte → Except DecodeError (Instr × List Byte)
  | hi :: lo :: rest =>
    match decode p (wordOfBytes hi lo) with
    | .ok i => .ok (i, rest)
    | .error e => .error e
  | bytes => .error (.truncated bytes)

/-! ### The encoder (R65) -/

/-- Format NNN: `op`, then a 12-bit address (R62). -/
def encodeNnn (op : Nibble) (nnn : Addr12) : Word := op ++ nnn

/-- Format XKK: `op`, a register, an immediate byte (R62); formats X and NONE are the same shape with a fixed byte. -/
def encodeXkk (op : Nibble) (x : Reg) (kk : Byte) : Word := op ++ nibbleOfReg x ++ kk

/-- Formats XY and XYN: `op`, two registers, a trailing nibble (R62). -/
def encodeXyn (op : Nibble) (x y : Reg) (n : Nibble) : Word := op ++ nibbleOfReg x ++ nibbleOfReg y ++ n

/-- The word of an instruction, from the opcode map of R65. -/
def encode : Instr → Word
  | .sys nnn => encodeNnn 0x0 nnn
  | .cls => 0x00E0
  | .ret => 0x00EE
  | .jp nnn => encodeNnn 0x1 nnn
  | .call nnn => encodeNnn 0x2 nnn
  | .seByte x kk => encodeXkk 0x3 x kk
  | .sneByte x kk => encodeXkk 0x4 x kk
  | .seReg x y => encodeXyn 0x5 x y 0x0
  | .ldByte x kk => encodeXkk 0x6 x kk
  | .addByte x kk => encodeXkk 0x7 x kk
  | .ldReg x y => encodeXyn 0x8 x y 0x0
  | .orReg x y => encodeXyn 0x8 x y 0x1
  | .andReg x y => encodeXyn 0x8 x y 0x2
  | .xorReg x y => encodeXyn 0x8 x y 0x3
  | .addReg x y => encodeXyn 0x8 x y 0x4
  | .subReg x y => encodeXyn 0x8 x y 0x5
  | .shr x y => encodeXyn 0x8 x y 0x6
  | .subnReg x y => encodeXyn 0x8 x y 0x7
  | .shl x y => encodeXyn 0x8 x y 0xE
  | .sneReg x y => encodeXyn 0x9 x y 0x0
  | .ldI nnn => encodeNnn 0xA nnn
  | .jpV0 nnn => encodeNnn 0xB nnn
  | .rnd x kk => encodeXkk 0xC x kk
  | .drw x y n => encodeXyn 0xD x y (nibbleOfReg n)
  | .skp x => encodeXkk 0xE x 0x9E
  | .sknp x => encodeXkk 0xE x 0xA1
  | .ldVxDT x => encodeXkk 0xF x 0x07
  | .ldVxK x => encodeXkk 0xF x 0x0A
  | .ldDTVx x => encodeXkk 0xF x 0x15
  | .ldSTVx x => encodeXkk 0xF x 0x18
  | .addI x => encodeXkk 0xF x 0x1E
  | .ldF x => encodeXkk 0xF x 0x29
  | .ldB x => encodeXkk 0xF x 0x33
  | .storeRegs x => encodeXkk 0xF x 0x55
  | .loadRegs x => encodeXkk 0xF x 0x65

/-! ### The fixed bits of a row (the `mask` and `match` columns of R65) -/

/-- The `mask` column of the instruction's row. -/
def rowMask : Instr → Word
  | .cls | .ret => 0xFFFF
  | .seReg _ _ | .ldReg _ _ | .orReg _ _ | .andReg _ _ | .xorReg _ _ | .addReg _ _ | .subReg _ _ | .shr _ _
  | .subnReg _ _ | .shl _ _ | .sneReg _ _ => 0xF00F
  | .skp _ | .sknp _ | .ldVxDT _ | .ldVxK _ | .ldDTVx _ | .ldSTVx _ | .addI _ | .ldF _ | .ldB _ | .storeRegs _
  | .loadRegs _ => 0xF0FF
  | .sys _ | .jp _ | .call _ | .seByte _ _ | .sneByte _ _ | .ldByte _ _ | .addByte _ _ | .ldI _ | .jpV0 _ | .rnd _ _
  | .drw _ _ _ => 0xF000

/-- The `match` column of the instruction's row. -/
def rowMatch : Instr → Word
  | .sys _ => 0x0000
  | .cls => 0x00E0
  | .ret => 0x00EE
  | .jp _ => 0x1000
  | .call _ => 0x2000
  | .seByte _ _ => 0x3000
  | .sneByte _ _ => 0x4000
  | .seReg _ _ => 0x5000
  | .ldByte _ _ => 0x6000
  | .addByte _ _ => 0x7000
  | .ldReg _ _ => 0x8000
  | .orReg _ _ => 0x8001
  | .andReg _ _ => 0x8002
  | .xorReg _ _ => 0x8003
  | .addReg _ _ => 0x8004
  | .subReg _ _ => 0x8005
  | .shr _ _ => 0x8006
  | .subnReg _ _ => 0x8007
  | .shl _ _ => 0x800E
  | .sneReg _ _ => 0x9000
  | .ldI _ => 0xA000
  | .jpV0 _ => 0xB000
  | .rnd _ _ => 0xC000
  | .drw _ _ _ => 0xD000
  | .skp _ => 0xE09E
  | .sknp _ => 0xE0A1
  | .ldVxDT _ => 0xF007
  | .ldVxK _ => 0xF00A
  | .ldDTVx _ => 0xF015
  | .ldSTVx _ => 0xF018
  | .addI _ => 0xF01E
  | .ldF _ => 0xF029
  | .ldB _ => 0xF033
  | .storeRegs _ => 0xF055
  | .loadRegs _ => 0xF065

/-! ### The host's numbering of a table word -/

/-- The instruction's bits above `nbits` are zero; the word is laid out as memory holds it, high byte first (R57). -/
def tableWord (nbits w : Nat) : Word := BitVec.ofNat 16 (w % 2 ^ nbits)

/-- What the decoder reads, under the default SYS_POLICY (R3), from an instruction whose bits are `w`, numbered as
spec/opcode_table.json numbers them: bit 0 the least significant of the one word. -/
def decodeTableWord (nbits w : Nat) : Option Instr :=
  match decodeBytes Config.default.sysPolicy [hiByte (tableWord nbits w), loByte (tableWord nbits w)] with
  | .ok (i, _) => some i
  | .error _ => none

end Sys2Proof
end

