-- ==== Sys2Proof/Machine/State.lean ====
section
/-! DEFINITION. The architectural state (10_state.md R10 to R27), the input pins, the machine after reset (R25), and the
reasons a step can stop. Plain data throughout. -/

namespace Sys2Proof.Machine

/-- RUN_STATE (R21). -/
inductive RunState where
  /-- After reset: the host may write memory; no step and no tick happens. -/
  | load
  /-- After `start`: steps and ticks happen. -/
  | run
  /-- After any fault: nothing changes until reset. -/
  | halt
  deriving DecidableEq, Repr

/-- The fault kinds of R170 with the value each carries. Raising one is fault ENTRY, a next state (R180, log 1). -/
inductive FaultKind where
  /-- A byte access at an address above 0xFFF (R171). -/
  | segmentationFault (addr : Word)
  /-- Reserved: nothing in the block raises it (R172). -/
  | invalidAddress
  /-- Reserved: nothing in the block raises it (R173). -/
  | invalidRegister (id : Word)
  /-- The fetched word is not in the opcode map (R174). -/
  | invalidInstruction (word : Word)
  /-- CALL with sixteen entries on the stack (R175). -/
  | stackOverflow
  /-- JP to its own address (R176). -/
  | infiniteLoop
  /-- Reserved for the host's program-file reader; the block never raises it (R177). -/
  | programLoadError
  /-- RET with nothing on the stack (R178). -/
  | stackUnderflow
  deriving DecidableEq, Repr

/-- The input pins as one clock edge samples them (R22). -/
structure Pins where
  /-- `rst`: reset (R200). -/
  rst : Bool
  /-- `start`: LOAD becomes RUN (R202). -/
  start : Bool
  /-- `step`: the pacing strobe of the execution engine (R86). -/
  step : Bool
  /-- `tick60`: the strobe of the timer engine (R185). -/
  tick60 : Bool
  /-- `rnd[7:0]`: the random byte (R125). -/
  rnd : Byte
  /-- `keys[15:0]`: bit `k` is 1 while key `k` is held (R166). -/
  keys : Word
  /-- `ld_we`: write enable of the loader port (R201). -/
  ldWe : Bool
  /-- `ld_addr[15:0]`. -/
  ldAddr : Word
  /-- `ld_data[7:0]`. -/
  ldData : Byte
  deriving DecidableEq, Repr

/-- Every pin low. -/
def Pins.low : Pins where
  rst := false
  start := false
  step := false
  tick60 := false
  rnd := 0
  keys := 0
  ldWe := false
  ldAddr := 0
  ldData := 0

/-- Memory as the list of the bytes that differ from their reset value, addresses strictly rising (R20, R40, log 9). -/
abbrev Memory := List Host.Cell

/-- FB: 32 rows, counted from the top, of 64 pixels, counted from the left; `true` is on (R19). -/
abbrev Framebuffer := Vector (Vector Bool 64) 32

/-- Everything the spec gives the machine, and below it the model's own fields. -/
structure State where
  /-- V0..VF (R10). -/
  v : Vector Byte 16
  /-- I, the index register (R12). -/
  i : Word
  /-- PC (R13). -/
  pc : Word
  /-- STACK[0..15] (R15). -/
  stack : Vector Word 16
  /-- SP, the number of return addresses on the stack, 0..16 (R16, log 10). -/
  sp : Fin 17
  /-- DT, the delay timer (R17). -/
  dt : Byte
  /-- ST, the sound timer (R18). -/
  st : Byte
  /-- FB (R19). -/
  fb : Framebuffer
  /-- MEM (R20). -/
  mem : Memory
  /-- RUN_STATE (R21). -/
  runState : RunState
  /-- FAULT_CODE (R21, R170). -/
  faultCode : BitVec 4
  /-- FAULT_INFO (R21, R170). -/
  faultInfo : Word
  /-- The output `redraw`: high after the edge whose DRW completed, low otherwise (R23, R153). -/
  redraw : Bool
  /-- The model's own: the platform parameters (R3, log 5, log 6). Nothing writes it. -/
  config : Config
  /-- The model's own: the input pins as the latest clock edge sampled them (R22, log 2). -/
  pins : Pins
  /-- The model's own: the samples of the clock edges still to come, oldest first (log 2). -/
  script : List Pins
  /-- The model's own: how many clock edges have passed; it numbers the free samples (log 2). -/
  cycle : Nat
  deriving DecidableEq, Repr

/-- The machine right after reset: the table of R25. The last four fields are the model's own (log 8). -/
def State.reset : State where
  v := Vector.replicate 16 0x00
  i := 0x0000
  pc := 0x0200
  stack := Vector.replicate 16 0x0000
  sp := 0
  dt := 0x00
  st := 0x00
  fb := Vector.replicate 32 (Vector.replicate 64 false)
  mem := []
  runState := .load
  faultCode := 0
  faultInfo := 0x0000
  redraw := false
  config := .default
  pins := .low
  script := []
  cycle := 0

/-- Why a step stops outside the spec's own state. It has no constructor: every fault of the spec is an entry into HALT that the
spec describes (R180), so it is a next state (log 1), and no step of this model ends in `Host.Outcome.fault`. -/
inductive Fault
  deriving DecidableEq, Repr

/-- Why the model refuses an instruction. -/
inductive Refusal where
  /-- Raised by an arm of `exec` whose instruction has no meaning yet; safe (the model stops where the hardware goes on). No
  arm raises it: every instruction has its meaning. -/
  | notModelled (mnemonic : String)
  deriving DecidableEq, Repr

end Sys2Proof.Machine
end

