-- ==== Sys2Proof/Machine/Ops.lean ====
section
/-! DEFINITION. The named operations over registers and memory, fault entry (60_exceptions.md R180) and reset (70 R200),
the timer tick (R185) and the sampling of the input pins (R22). -/

namespace Sys2Proof.Machine

/-! ### General registers (R10, R11) -/

/-- The number of VF (R11). -/
def regF : Reg := 15

/-- Read `V[x]`. -/
def State.getV (s : State) (x : Reg) : Byte := s.v[x]

/-- `V[x] <- b`. VF is ordinary storage (R11). -/
def State.setV (s : State) (x : Reg) (b : Byte) : State := { s with v := s.v.set x b }

/-! ### Special registers (R12, R13, R17, R18) -/

/-- `PC <- a`; nothing masks it (R13). -/
def State.setPc (s : State) (a : Word) : State := { s with pc := a }

/-- `I <- a`; nothing masks it (R12). -/
def State.setI (s : State) (a : Word) : State := { s with i := a }

/-- `DT <- b`, one atomic write (R17, R161). -/
def State.setDt (s : State) (b : Byte) : State := { s with dt := b }

/-- `ST <- b` (R18). -/
def State.setSt (s : State) (b : Byte) : State := { s with st := b }

/-- A skip is exactly adding 2 to the post-fetch PC (R104). -/
def State.skipIf (s : State) (c : Bool) : State := if c then s.setPc (s.pc + 2) else s

/-! ### Fault entry and what leaves HALT (R170, R180, R186, R200) -/

/-- FAULT_CODE of a kind (R170). -/
def FaultKind.code : FaultKind → BitVec 4
  | .segmentationFault _ => 1
  | .invalidAddress => 2
  | .invalidRegister _ => 3
  | .invalidInstruction _ => 4
  | .stackOverflow => 5
  | .infiniteLoop => 6
  | .programLoadError => 7
  | .stackUnderflow => 8

/-- FAULT_INFO of a kind: the value it carries, or 0 (R170). -/
def FaultKind.info : FaultKind → Word
  | .segmentationFault addr => addr
  | .invalidAddress => 0
  | .invalidRegister id => id
  | .invalidInstruction word => word
  | .stackOverflow => 0
  | .infiniteLoop => 0
  | .programLoadError => 0
  | .stackUnderflow => 0

/-- `raise <Fault>(info)`: latch the code and the info, halt, and nothing else (R180). -/
def State.raise (s : State) (f : FaultKind) : State :=
  { s with faultCode := f.code, faultInfo := f.info, runState := .halt }

/-- The only way out of HALT, and from any other state too: every piece of state takes its reset value (R200). There is no
return from a fault (R186). The model's own fields stay: the platform and the pins are not state (log 12). -/
def State.takeReset (s : State) : State :=
  { State.reset with config := s.config, pins := s.pins, script := s.script, cycle := s.cycle }

/-- The output `halted` (R23). -/
def State.halted (s : State) : Bool := s.runState = .halt

/-! ### Memory (20_memory.md R40 to R58) -/

/-- Glyphs 0 to 7 of the font (R48). -/
def fontLow : List Byte :=
  [0xF0, 0x90, 0x90, 0x90, 0xF0] ++ [0x20, 0x60, 0x20, 0x20, 0x70] ++
  [0xF0, 0x10, 0xF0, 0x80, 0xF0] ++ [0xF0, 0x10, 0xF0, 0x10, 0xF0] ++
  [0x90, 0x90, 0xF0, 0x10, 0x10] ++ [0xF0, 0x80, 0xF0, 0x10, 0xF0] ++
  [0xF0, 0x80, 0xF0, 0x90, 0xF0] ++ [0xF0, 0x10, 0x20, 0x40, 0x40]

/-- Glyphs 8 to F of the font (R48). -/
def fontHigh : List Byte :=
  [0xF0, 0x90, 0xF0, 0x90, 0xF0] ++ [0xF0, 0x90, 0xF0, 0x10, 0xF0] ++
  [0xF0, 0x90, 0xF0, 0x90, 0x90] ++ [0xE0, 0x90, 0xE0, 0x90, 0xE0] ++
  [0xF0, 0x80, 0x80, 0x80, 0xF0] ++ [0xE0, 0x90, 0x90, 0x90, 0xE0] ++
  [0xF0, 0x80, 0xF0, 0x80, 0xF0] ++ [0xF0, 0x80, 0xF0, 0x80, 0x80]

/-- The 80 font bytes at 0x000..0x04F, glyph `d` at `5 * d` (R47, R48). -/
def font : List Byte := fontLow ++ fontHigh

/-- What an unlisted address reads as: the contents after reset, the font and then zero (R25, R47). -/
def resetByte (a : Nat) : Byte := font.getD a 0x00

/-- An address is valid exactly when it is at most 0xFFF (R41). -/
def validAddr (a : Nat) : Bool := a ≤ 0xFFF

/-- `MEM[a]`. -/
def Memory.read : Memory → Nat → Byte
  | [], a => resetByte a
  | c :: m, a => if c.1 = a then c.2 else Memory.read m a

/-- The list with every entry of address `a` taken out. -/
def Memory.erase (m : Memory) (a : Nat) : Memory := m.filter (fun c => c.1 != a)

/-- A cell put at its place in rising order of addresses. -/
def Memory.insert (c : Host.Cell) : Memory → Memory
  | [] => [c]
  | d :: m => if c.1 < d.1 then c :: d :: m else d :: Memory.insert c m

/-- `MEM[a] <- b`, keeping the canonical form: writing the reset value takes the entry out. -/
def Memory.write (m : Memory) (a : Nat) (b : Byte) : Memory :=
  if b = resetByte a then Memory.erase m a else Memory.insert (a, b) (Memory.erase m a)

/-- The canonical form: addresses strictly rising, all valid, no entry equal to its reset value. -/
abbrev Memory.wf (m : Memory) : Prop :=
  (m.map (·.1)).Pairwise (· < ·) ∧ ∀ c ∈ m, validAddr c.1 = true ∧ c.2 ≠ resetByte c.1

/-- `MemRead(a, 1)` (R42). Addresses are naturals: no effective address wraps (R56). -/
def State.memRead (s : State) (a : Nat) : Except FaultKind Byte :=
  if validAddr a then .ok (Memory.read s.mem a) else .error (.segmentationFault (BitVec.ofNat 16 a))

/-- `MemRead(a, 2)`: big-endian, the high byte is checked first (R44, D14). -/
def State.memReadWord (s : State) (a : Nat) : Except FaultKind Word :=
  match s.memRead a with
  | .error f => .error f
  | .ok hi =>
    match s.memRead (a + 1) with
    | .error f => .error f
    | .ok lo => .ok (wordOfBytes hi lo)

/-- `MemWrite(a, 1, b)` (R43). -/
def State.memWrite (s : State) (a : Nat) (b : Byte) : Except FaultKind State :=
  if validAddr a then .ok { s with mem := Memory.write s.mem a b }
  else .error (.segmentationFault (BitVec.ofNat 16 a))

/-- Byte writes at ascending addresses, stopping at the first SegmentationFault with the earlier bytes written: the shape of
LD B and LD [I] (R143, R144, R146), of the loader port's write and of `load_block` (R46, R201). -/
def State.storeBytes (s : State) (a : Nat) : List Byte → State
  | [] => s
  | b :: bs =>
    match s.memWrite a b with
    | .ok s' => s'.storeBytes (a + 1) bs
    | .error f => s.raise f

/-- Register loads `V[k] <- MemRead(base + k, 1)` in the order given, stopping at the first SegmentationFault with the earlier
registers loaded (R145, R146). -/
def State.loadRegsFrom (s : State) (base : Nat) : List Reg → State
  | [] => s
  | k :: ks =>
    match s.memRead (base + k.val) with
    | .ok b => (s.setV k b).loadRegsFrom base ks
    | .error f => s.raise f

/-- `n` byte reads at ascending addresses, or the first fault (R150, phase 1). -/
def State.readBytes (s : State) (a : Nat) : Nat → Except FaultKind (List Byte)
  | 0 => .ok []
  | n + 1 =>
    match s.memRead a with
    | .error f => .error f
    | .ok b =>
      match s.readBytes (a + 1) n with
      | .error f => .error f
      | .ok bs => .ok (b :: bs)

/-- `load_block(data, start_addr)` (R46). -/
def State.loadBlock (s : State) (data : List Byte) (start : Nat) : State := s.storeBytes start data

/-! ### The framebuffer (R19, R152) -/

/-- `FB[y][x]`. -/
def Framebuffer.get (fb : Framebuffer) (x : Fin 64) (y : Fin 32) : Bool := fb[y][x]

/-- `Toggle(x, y)` without its report: the pixel flipped (R152). -/
def Framebuffer.toggle (fb : Framebuffer) (x : Fin 64) (y : Fin 32) : Framebuffer :=
  fb.set y (fb[y].set x (!fb[y][x]))

/-- Every pixel off (R151). -/
def Framebuffer.blank : Framebuffer := Vector.replicate 32 (Vector.replicate 64 false)

/-- A framebuffer and whether a flip has collided so far (R150, phase 2). -/
abbrev Plot := Framebuffer × Bool

/-- One set sprite bit at column `px`, row `py`: beyond the edge it is skipped, otherwise the pixel is toggled and a pixel
that was on is a collision (R150, R152). -/
def plotBit (px py : Nat) (p : Plot) : Plot :=
  if hx : px < 64 then
    if hy : py < 32 then
      (Framebuffer.toggle p.1 ⟨px, hx⟩ ⟨py, hy⟩, p.2 || Framebuffer.get p.1 ⟨px, hx⟩ ⟨py, hy⟩)
    else p
  else p

/-- The bits of one sprite byte, `b = 0` (the byte's bit 7) first, at columns `xb + b` (R150). -/
def plotRow (xb py : Nat) (row : Byte) (p : Plot) : Plot :=
  (List.range 8).foldl (fun q b => if row.getLsbD (7 - b) then plotBit (xb + b) py q else q) p

/-- The rows of a sprite, top to bottom (R150). -/
def plotRows (xb : Nat) : Nat → List Byte → Plot → Plot
  | _, [], p => p
  | py, row :: rows, p => plotRows xb (py + 1) rows (plotRow xb py row p)

/-! ### The call stack (R15, R16) -/

/-- `STACK[SP] <- a; SP <- SP + 1`; the full stack raises StackOverflow and keeps everything (R101, R175). -/
def State.push (s : State) (a : Word) : Except FaultKind State :=
  if h : s.sp.val < 16 then
    .ok { s with stack := s.stack.set s.sp.val a h, sp := ⟨s.sp.val + 1, by omega⟩ }
  else .error .stackOverflow

/-- `SP <- SP - 1`, and the entry at the new SP; the empty stack raises StackUnderflow and keeps everything (R102, R178). The
entry is not cleared. -/
def State.pop (s : State) : Except FaultKind (Word × State) :=
  if h : s.sp.val = 0 then .error .stackUnderflow
  else .ok (s.stack[s.sp.val - 1]'(by omega), { s with sp := ⟨s.sp.val - 1, by omega⟩ })

/-! ### The timer engine (R185) -/

/-- One tick: `if DT > 0 then DT <- DT - 1`, and no other action (R185). -/
def State.tick (s : State) : State := if s.dt = 0 then s else s.setDt (s.dt - 1)

/-! ### The input pins (R22, log 2) -/

/-- The number of the edge at which the pulse `k` of a strobe falls, `gap k` being the number of edges without a pulse before it. -/
def strobeTime (gap : Nat → Nat) : Nat → Nat
  | 0 => gap 0
  | k + 1 => strobeTime gap k + 1 + gap (k + 1)

/-- Whether the strobe is high at edge `n`. Every gap is finite, so it is high infinitely often (R209, log 22). -/
def strobe (gap : Nat → Nat) (n : Nat) : Bool := (List.range (n + 1)).any (fun k => strobeTime gap k = n)

/-- The sample where the script names none: the two strobes free but fair, `rnd` and `keys` free, and the host's pins low (log 2, 3,
4, 22). -/
def freePins (cycle : Nat) : Pins :=
  { Pins.low with
    step := strobe Config.freeStepGap cycle
    tick60 := strobe Config.freeTickGap cycle
    rnd := Config.freeRnd cycle
    keys := Config.freeKeys cycle }

/-- A sample with the `step` strobe alone, `rnd` and `keys` free. -/
def stepPins (cycle : Nat) : Pins :=
  { Pins.low with step := true, rnd := Config.freeRnd cycle, keys := Config.freeKeys cycle }

/-- What the coming clock edge samples: the head of the script, or the free sample. -/
def State.nextPins (s : State) : Pins :=
  match s.script with
  | p :: _ => p
  | [] => freePins s.cycle

/-- A clock edge samples the pins; the redraw pulse of the cycle before it ends (R22, R153). -/
def State.sampleInputs (s : State) : State :=
  { s with pins := s.nextPins, script := s.script.tail, cycle := s.cycle + 1, redraw := false }

/-- The `keys` input: tied to 0x0000 on a platform without a keypad (R166, D7). -/
def State.keysIn (s : State) : Word := if s.config.keysPresent then s.pins.keys else 0x0000

/-! ### The loader port and `start` (R201, R202) -/

/-- A clock edge in LOAD: the loader's write first, which halts the machine above 0xFFF; then `start`, honoured only if the
machine is still in LOAD (R201, R202, log 11). -/
def State.loadEdge (s : State) : State :=
  let s1 := if s.pins.ldWe then s.storeBytes s.pins.ldAddr.toNat [s.pins.ldData] else s
  if s.pins.start && s1.runState = .load then { s1 with runState := .run } else s1

/-! ### Fetch (R81) -/

/-- The fetch: `MemRead(PC, 2)`. It changes nothing (R81). -/
def State.fetch (s : State) : Except FaultKind Word := s.memReadWord s.pc.toNat

end Sys2Proof.Machine
end

