-- ==== Sys2Proof/Machine/Operands.lean ====
section
/-! DEFINITION. Every operand form of the spec: zero-extension (30_encoding.md R63), register ranges, addresses through I
(43_index_memory.md R146), decimal digits, glyph addresses, sprite origins and key numbers. -/

namespace Sys2Proof.Machine

/-- `zext_16(nnn)` (R63). -/
def zextAddr (nnn : Addr12) : Word := nnn.zeroExtend 16

/-- `zext_16(V[x])` (R5). -/
def zextByte (b : Byte) : Word := b.zeroExtend 16

/-- The registers V0, V1, ..., Vx in ascending order: `for k in 0 .. x` (R144, R145). -/
def regsUpTo (x : Reg) : List Reg := (List.finRange 16).take (x.val + 1)

/-- `EA(0) = I`, as a natural number: effective addresses never wrap (R56, R146). -/
def State.base (s : State) : Nat := s.i.toNat

/-- Hundreds, tens and ones of a byte, each a whole byte 0x00..0x09 (R143). -/
def bcdDigits (b : Byte) : List Byte :=
  [BitVec.ofNat 8 (b.toNat / 100), BitVec.ofNat 8 (b.toNat / 10 % 10), BitVec.ofNat 8 (b.toNat % 10)]

/-- `zext_16((V[x] & 0x0F) * 5)`: the glyph of the low nibble (R142). -/
def glyphAddr (b : Byte) : Word := zextByte (b &&& 0x0F) * 5

/-- The column a sprite starts at: `V[x] & 63` (R150). -/
def originX (b : Byte) : Nat := (b &&& 63).toNat

/-- The row a sprite starts at: `V[y] & 31` (R150). -/
def originY (b : Byte) : Nat := (b &&& 31).toNat

/-- Key `V[x] & 0x0F` is down (R163, R164, D31). -/
def keyDown (keys : Word) (b : Byte) : Bool := keys.getLsbD (b &&& 0x0F).toNat

/-- The smallest `k` with `keys[k] = 1`, or 0 where no key is down (LD Vx, K reads it only where one is; R165). -/
def lowestKey (keys : Word) : Byte := BitVec.ofNat 8 (((List.range 16).find? (fun k => keys.getLsbD k)).getD 0)

end Sys2Proof.Machine
end

