-- ==== Sys2Proof/Machine/Alu.lean ====
section
/-! DEFINITION. ALU and register instructions (42_alu.md R120 to R133). Sources are read once, before anything is written
(R133); PC stays at its post-fetch value. -/

namespace Sys2Proof.Machine

/-- The arithmetic group's order of writes: the result to `V[x]` first, the flag to VF last (R133, D17). -/
def State.setResultThenFlag (s : State) (x : Reg) (result : Byte) (flag : Bool) : State :=
  (s.setV x result).setV regF (flagByte flag)

/-- The shifts' order of writes: the flag to VF first, the result to `V[x]` last (R133, D18). -/
def State.setFlagThenResult (s : State) (x : Reg) (result : Byte) (flag : Bool) : State :=
  (s.setV regF (flagByte flag)).setV x result

/-- `LD Vx, kk` (R126). -/
def execLdByte (x : Reg) (kk : Byte) (s : State) : Host.Outcome State Fault Refusal := .next (s.setV x kk)

/-- `ADD Vx, kk`: wraps, VF is not written (R127, D20). -/
def execAddByte (x : Reg) (kk : Byte) (s : State) : Host.Outcome State Fault Refusal :=
  .next (s.setV x (s.getV x + kk))

/-- `LD Vx, Vy` (R128). -/
def execLdReg (x y : Reg) (s : State) : Host.Outcome State Fault Refusal := .next (s.setV x (s.getV y))

/-- `OR Vx, Vy`: VF is left alone (R129, D19). -/
def execOrReg (x y : Reg) (s : State) : Host.Outcome State Fault Refusal :=
  .next (s.setV x (s.getV x ||| s.getV y))

/-- `AND Vx, Vy`: VF is left alone (R130, D19). -/
def execAndReg (x y : Reg) (s : State) : Host.Outcome State Fault Refusal :=
  .next (s.setV x (s.getV x &&& s.getV y))

/-- `XOR Vx, Vy`: VF is left alone (R131, D19). -/
def execXorReg (x y : Reg) (s : State) : Host.Outcome State Fault Refusal :=
  .next (s.setV x (s.getV x ^^^ s.getV y))

/-- `ADD Vx, Vy` (R120). -/
def execAddReg (x y : Reg) (s : State) : Host.Outcome State Fault Refusal :=
  .next (s.setResultThenFlag x (s.getV x + s.getV y) (carry (s.getV x) (s.getV y)))

/-- `SUB Vx, Vy` (R121). -/
def execSubReg (x y : Reg) (s : State) : Host.Outcome State Fault Refusal :=
  .next (s.setResultThenFlag x (s.getV x - s.getV y) (noBorrow (s.getV x) (s.getV y)))

/-- `SHR Vx`: the operand is Vx and the `y` field is ignored (R123, R70, D18). -/
def execShr (x _y : Reg) (s : State) : Host.Outcome State Fault Refusal :=
  .next (s.setFlagThenResult x (s.getV x >>> 1) (shiftedOutRight (s.getV x)))

/-- `SUBN Vx, Vy`: Vy - Vx (R122). -/
def execSubnReg (x y : Reg) (s : State) : Host.Outcome State Fault Refusal :=
  .next (s.setResultThenFlag x (s.getV y - s.getV x) (noBorrow (s.getV y) (s.getV x)))

/-- `SHL Vx`: the operand is Vx and the `y` field is ignored (R124, R70, D18). -/
def execShl (x _y : Reg) (s : State) : Host.Outcome State Fault Refusal :=
  .next (s.setFlagThenResult x (s.getV x <<< 1) (shiftedOutLeft (s.getV x)))

/-- `RND Vx, kk`: the `rnd` input of this step under the mask `kk`; VF-independent (R125, D29). -/
def execRnd (x : Reg) (kk : Byte) (s : State) : Host.Outcome State Fault Refusal :=
  .next (s.setV x (kk &&& s.pins.rnd))

end Sys2Proof.Machine
end

