-- ==== Sys2Proof/Machine/ControlFlow.lean ====
section
/-! DEFINITION. Control transfer (41_control_flow.md R100 to R108). In every meaning `s.pc` is the post-fetch PC (R82). -/

namespace Sys2Proof.Machine

/-- `SYS nnn`: no effect (R108). -/
def execSys (_nnn : Addr12) (s : State) : Host.Outcome State Fault Refusal := .next s

/-- `RET` (R102). -/
def execRet (s : State) : Host.Outcome State Fault Refusal :=
  match s.pop with
  | .error f => .next (s.raise f)
  | .ok (a, s') => .next (s'.setPc a)

/-- `JP nnn`: a jump to its own address raises InfiniteLoop and is not performed (R100). -/
def execJp (nnn : Addr12) (s : State) : Host.Outcome State Fault Refusal :=
  if zextAddr nnn = s.pc - 2 then .next (s.raise .infiniteLoop) else .next (s.setPc (zextAddr nnn))

/-- `CALL nnn`: push the post-fetch PC, then jump (R101). -/
def execCall (nnn : Addr12) (s : State) : Host.Outcome State Fault Refusal :=
  match s.push s.pc with
  | .error f => .next (s.raise f)
  | .ok s' => .next (s'.setPc (zextAddr nnn))

/-- `SE Vx, kk` (R104). -/
def execSeByte (x : Reg) (kk : Byte) (s : State) : Host.Outcome State Fault Refusal :=
  .next (s.skipIf (s.getV x = kk))

/-- `SNE Vx, kk` (R105). -/
def execSneByte (x : Reg) (kk : Byte) (s : State) : Host.Outcome State Fault Refusal :=
  .next (s.skipIf (s.getV x ≠ kk))

/-- `SE Vx, Vy` (R106). -/
def execSeReg (x y : Reg) (s : State) : Host.Outcome State Fault Refusal :=
  .next (s.skipIf (s.getV x = s.getV y))

/-- `SNE Vx, Vy` (R107). -/
def execSneReg (x y : Reg) (s : State) : Host.Outcome State Fault Refusal :=
  .next (s.skipIf (s.getV x ≠ s.getV y))

/-- `JP V0, nnn`: the sum is not masked (R103). -/
def execJpV0 (nnn : Addr12) (s : State) : Host.Outcome State Fault Refusal :=
  .next (s.setPc (zextAddr nnn + zextByte (s.getV 0)))

end Sys2Proof.Machine
end

