-- ==== Sys2Proof/Machine/Display.lean ====
section
/-! DEFINITION. Framebuffer instructions (44_display.md R150 to R153). -/

namespace Sys2Proof.Machine

/-- The end of a DRW that completes: the pixels, the collision in VF, the redraw pulse (R150, R153). -/
def State.finishDraw (s : State) (p : Plot) : State :=
  { s.setV regF (flagByte p.2) with fb := p.1, redraw := true }

/-- `DRW Vx, Vy, n`: the origin is read before anything is written, the whole sprite is read before any pixel is touched, and
a fault in the read leaves framebuffer, VF and redraw alone (R150, D24, D39). -/
def execDrw (x y : Reg) (n : Fin 16) (s : State) : Host.Outcome State Fault Refusal :=
  match s.readBytes s.base n.val with
  | .error f => .next (s.raise f)
  | .ok rows => .next (s.finishDraw (plotRows (originX (s.getV x)) (originY (s.getV y)) rows (s.fb, false)))

/-- `CLS`: every pixel off; VF untouched, no redraw pulse (R151, D25, D26). -/
def execCls (s : State) : Host.Outcome State Fault Refusal := .next { s with fb := Framebuffer.blank }

end Sys2Proof.Machine
end

