-- ==== Sys2Proof/Machine/TimersKeys.lean ====
section
/-! DEFINITION. Timer and key instructions (45_timers_keys.md R160 to R166). -/

namespace Sys2Proof.Machine

/-- `LD Vx, DT`: one atomic read of the shared byte (R160). -/
def execLdVxDT (x : Reg) (s : State) : Host.Outcome State Fault Refusal := .next (s.setV x s.dt)

/-- `LD DT, Vx`: one atomic write of the shared byte (R161). -/
def execLdDTVx (x : Reg) (s : State) : Host.Outcome State Fault Refusal := .next (s.setDt (s.getV x))

/-- `LD ST, Vx` (R162). -/
def execLdSTVx (x : Reg) (s : State) : Host.Outcome State Fault Refusal := .next (s.setSt (s.getV x))

/-- `SKP Vx` (R163). -/
def execSkp (x : Reg) (s : State) : Host.Outcome State Fault Refusal :=
  .next (s.skipIf (keyDown s.keysIn (s.getV x)))

/-- `SKNP Vx` (R164). -/
def execSknp (x : Reg) (s : State) : Host.Outcome State Fault Refusal :=
  .next (s.skipIf (!keyDown s.keysIn (s.getV x)))

/-- `LD Vx, K`: while no key is down PC goes back to this instruction; otherwise the lowest key that is down (R165, D30). -/
def execLdVxK (x : Reg) (s : State) : Host.Outcome State Fault Refusal :=
  if s.keysIn = 0x0000 then .next (s.setPc (s.pc - 2)) else .next (s.setV x (lowestKey s.keysIn))

end Sys2Proof.Machine
end

