-- ==== Sys2Proof/Machine/Engine.lean ====
section
/-! DEFINITION. The execution engine's step (40_fetch_decode.md R80 to R85) and the clock edge around it: reset, the loader
phase, the tick and the step, and HALT (60_exceptions.md R182; 70_reset_and_hazards.md R200 to R210). -/

namespace Sys2Proof.Machine

/-- `Step()`: fetch at PC, advance PC by 2, decode, execute (R80). A fetch fault leaves PC (R81); a decode fault comes after the
advance (R83). -/
def engineStep (s : State) : Host.Outcome State Fault Refusal :=
  match s.fetch with
  | .error f => .next (s.raise f)
  | .ok w =>
    match decode s.config.sysPolicy w with
    | .error _ => .next ((s.setPc (s.pc + 2)).raise (.invalidInstruction w))
    | .ok i => exec i (s.setPc (s.pc + 2))

/-- A clock edge in RUN: the tick first, then the step, each where its strobe is high (R210). -/
def runEdge (s : State) : Host.Outcome State Fault Refusal :=
  let s1 := if s.pins.tick60 then s.tick else s
  if s.pins.step then engineStep s1 else .next s1

/-- What a clock edge does once its pins are sampled: reset from any state (R200); the loader phase (R87, R201, R202); steps and
ticks (R86, R185); nothing at all in HALT (R182). -/
def edgeBody (s : State) : Host.Outcome State Fault Refusal :=
  if s.pins.rst then .next s.takeReset
  else match s.runState with
    | .load => .next s.loadEdge
    | .run => runEdge s
    | .halt => .next s

/-- One clock edge. -/
def clockEdge (s : State) : Host.Outcome State Fault Refusal := edgeBody s.sampleInputs

/-! ### Placing the next instruction (log 15) -/

/-- The address the next instruction is placed at: PC where a word can be fetched there, else the entry point 0x200. -/
def placeAddr (s : State) : Word := if s.pc.toNat < 0xFFF then s.pc else 0x0200

/-- The state with the word where the engine fetches next, in RUN, with the `step` strobe alone at the coming edge. -/
def placeWord (s : State) (w : Word) : State :=
  { s with
    mem := Memory.write (Memory.write s.mem (placeAddr s).toNat (hiByte w)) ((placeAddr s).toNat + 1) (loByte w)
    pc := placeAddr s
    runState := .run
    script := [stepPins s.cycle] }

end Sys2Proof.Machine
end

