-- ==== Sys2Proof/Machine/Step.lean ====
section
/-! DEFINITION. One step of the machine is one clock edge (10_state.md R22). Everything it does stands in Machine/Engine.lean. -/

namespace Sys2Proof.Machine

/-- One clock edge: three outcomes by type; on this hardware always a next state (log 1). -/
def step : State → Host.Outcome State Fault Refusal := clockEdge

/-- `s` with the instruction of this table word where the very next step fetches it; stands for the host's load and start
(log 15). -/
def State.withFetchWord (s : State) (nbits w : Nat) : State := placeWord s (tableWord nbits w)

end Sys2Proof.Machine
end

