-- ==== Sys2Proof/Safety.lean ====
section
/-! DEFINITION. The terms claims are stated in: how a run ends (70_reset_and_hazards.md R204), what a state must satisfy, what an
instruction leaves unchanged, which instruction the coming clock edge runs, and what a sprite covers. -/

namespace Sys2Proof.Machine

/-! ### How a run ends (R204) -/

/-- A run has ended when RUN_STATE = HALT (R204). -/
def State.ended (s : State) : Prop := s.runState = .halt

/-- It has ended normally when the fault is InfiniteLoop (R204, D38). -/
def State.endedNormally (s : State) : Prop := s.ended ∧ s.faultCode = FaultKind.infiniteLoop.code

/-- The machine is halted by this fault (R180). -/
def State.haltedBy (s : State) (f : FaultKind) : Prop :=
  s.runState = .halt ∧ s.faultCode = f.code ∧ s.faultInfo = f.info

/-! ### Frames: the pieces of state and what may change -/

/-- The pieces of state a frame speaks about, memory byte by byte and register by register. -/
inductive Part where
  | reg (r : Reg)
  | index
  | pc
  | callStack
  | delayTimer
  | soundTimer
  | screen
  | redraw
  | byte (a : Nat)
  | control
  | platform
  deriving DecidableEq, Repr

/-- The piece has the same value in both states. `callStack` is STACK and SP; `control` is RUN_STATE, FAULT_CODE and FAULT_INFO;
`platform` is the model's own fields. -/
def Part.same (p : Part) (s t : State) : Prop :=
  match p with
  | .reg r => t.getV r = s.getV r
  | .index => t.i = s.i
  | .pc => t.pc = s.pc
  | .callStack => t.stack = s.stack ∧ t.sp = s.sp
  | .delayTimer => t.dt = s.dt
  | .soundTimer => t.st = s.st
  | .screen => t.fb = s.fb
  | .redraw => t.redraw = s.redraw
  | .byte a => Memory.read t.mem a = Memory.read s.mem a
  | .control => t.runState = s.runState ∧ t.faultCode = s.faultCode ∧ t.faultInfo = s.faultInfo
  | .platform => t.config = s.config ∧ t.pins = s.pins ∧ t.script = s.script ∧ t.cycle = s.cycle

/-- Every piece but those named has the same value after as before. -/
def ChangesOnly (named : Part → Prop) (s t : State) : Prop := ∀ p : Part, ¬ named p → p.same s t

/-- The pieces a fault entry writes (R180). -/
def Part.isControl (p : Part) : Prop := p = .control

/-- The pieces a clock edge itself writes: the model's own fields and the redraw output (R153). -/
def Part.isEdge (p : Part) : Prop := p = .platform ∨ p = .redraw

/-! ### Invariants -/

/-- FAULT_CODE and FAULT_INFO agree with RUN_STATE and with each other: no fault before HALT, a raisable kind in HALT, an info only
where the kind carries one, and a bad address above 0xFFF (R21, R170 to R178). -/
def State.LatchInv (s : State) : Prop :=
  (s.runState = .halt ↔ s.faultCode ≠ 0) ∧
  (s.faultCode = 0 ∨ s.faultCode = 1 ∨ s.faultCode = 4 ∨ s.faultCode = 5 ∨ s.faultCode = 6 ∨ s.faultCode = 8) ∧
  (s.faultCode ≠ 1 → s.faultCode ≠ 4 → s.faultInfo = 0) ∧
  (s.faultCode = 1 → 0x1000 ≤ s.faultInfo.toNat)

/-- Memory keeps its canonical form, the fault latch is coherent, and redraw is high in RUN only (R153). -/
def State.Inv (s : State) : Prop :=
  Memory.wf s.mem ∧ s.LatchInv ∧ (s.redraw = true → s.runState = .run)

/-- PC reaches at most 0x10FE, and every entry on the stack is a value CALL pushed, at most 0x1000 (R14). -/
def State.PcInv (s : State) : Prop :=
  s.pc.toNat ≤ 0x10FE ∧ ∀ k : Fin 16, k.val < s.sp.val → s.stack[k].toNat ≤ 0x1000

/-! ### What the coming clock edge does -/

/-- The coming clock edge takes a step of the execution engine (R86). -/
def State.steps (s : State) : Prop :=
  s.runState = .run ∧ s.nextPins.rst = false ∧ s.nextPins.step = true

/-- The state that step starts from: the pins sampled, and the tick of the same edge, if any, taken (R210). -/
def State.atStep (s : State) : State := if s.nextPins.tick60 then s.sampleInputs.tick else s.sampleInputs

/-- The word at PC: the byte at PC is the high byte (R81). -/
def State.wordAtPc (s : State) : Word :=
  wordOfBytes (Memory.read s.mem s.pc.toNat) (Memory.read s.mem (s.pc.toNat + 1))

/-- The instruction the coming step runs, if its fetch and its decode succeed. -/
def State.fetches (s : State) (i : Instr) : Prop :=
  s.pc.toNat + 1 ≤ 0xFFF ∧ decode s.config.sysPolicy s.wordAtPc = .ok i

/-! ### Words written by the patterns of the opcode map (R62, R65) -/

/-- The word of a pattern with a 12-bit address: `base` is the pattern with its fields zero. -/
def wordNnn (base : Nat) (nnn : Addr12) : Word := BitVec.ofNat 16 (base + nnn.toNat)

/-- The word of a pattern with a register in bits 11..8 and an immediate in bits 7..0. -/
def wordXkk (base : Nat) (x : Reg) (kk : Byte) : Word := BitVec.ofNat 16 (base + 256 * x.val + kk.toNat)

/-- The word of a pattern with registers in bits 11..8 and 7..4 and a number in bits 3..0. -/
def wordXyn (base : Nat) (x y : Reg) (n : Fin 16) : Word := BitVec.ofNat 16 (base + 256 * x.val + 16 * y.val + n.val)

/-- The word is this instruction under either SYS_POLICY. -/
def decodesTo (w : Word) (i : Instr) : Prop := ∀ p : SysPolicy, decode p w = .ok i

/-! ### Effects by table -/

/-- The registers an instruction may write: the 'write' rows of R10's table. -/
def writesReg (i : Instr) (r : Reg) : Bool :=
  match i with
  | .ldByte x _ | .addByte x _ | .ldReg x _ | .orReg x _ | .andReg x _ | .xorReg x _ | .rnd x _ | .ldVxDT x
  | .ldVxK x => r = x
  | .addReg x _ | .subReg x _ | .shr x _ | .subnReg x _ | .shl x _ => r = x || r = regF
  | .drw _ _ _ => r = regF
  | .loadRegs x => r ≤ x
  | .sys _ | .cls | .ret | .jp _ | .call _ | .seByte _ _ | .sneByte _ _ | .seReg _ _ | .sneReg _ _ | .ldI _ | .jpV0 _
  | .skp _ | .sknp _ | .ldDTVx _ | .ldSTVx _ | .addI _ | .ldF _ | .ldB _ | .storeRegs _ => false

/-- FAULT_CODE of the one kind of fault an instruction can raise in Execute; 0 for one that raises none (R179). -/
def raisesCode : Instr → BitVec 4
  | .jp _ => 6
  | .call _ => 5
  | .ret => 8
  | .ldB _ | .storeRegs _ | .loadRegs _ | .drw _ _ _ => 1
  | .sys _ | .cls | .seByte _ _ | .sneByte _ _ | .seReg _ _ | .ldByte _ _ | .addByte _ _ | .ldReg _ _ | .orReg _ _
  | .andReg _ _ | .xorReg _ _ | .addReg _ _ | .subReg _ _ | .shr _ _ | .subnReg _ _ | .shl _ _ | .sneReg _ _ | .ldI _
  | .jpV0 _ | .rnd _ _ | .skp _ | .sknp _ | .ldVxDT _ | .ldVxK _ | .ldDTVx _ | .ldSTVx _ | .addI _ | .ldF _ => 0

/-- The instructions that put PC elsewhere than at its post-fetch value: the rows of R14's table but the last four. -/
def writesPc : Instr → Bool
  | .jp _ | .call _ | .ret | .jpV0 _ | .seByte _ _ | .sneByte _ _ | .seReg _ _ | .sneReg _ _ | .skp _ | .sknp _ | .ldVxK _ => true
  | .sys _ | .cls | .ldByte _ _ | .addByte _ _ | .ldReg _ _ | .orReg _ _ | .andReg _ _ | .xorReg _ _ | .addReg _ _ | .subReg _ _
  | .shr _ _ | .subnReg _ _ | .shl _ _ | .ldI _ | .rnd _ _ | .drw _ _ _ | .ldVxDT _ | .ldDTVx _ | .ldSTVx _ | .addI _ | .ldF _
  | .ldB _ | .storeRegs _ | .loadRegs _ => false

/-! ### What a sprite covers (R150) -/

/-- The sprite bit that falls on column `px`, row `py`, for a sprite of rows `rows` with its top left corner at `(xb, yb)`: row
`py - yb`, bit `7 - (px - xb)`; off where the sprite does not reach. It is read off the picture, pixel by pixel, and not off the
plotting loop. -/
def spriteBit (xb yb : Nat) (rows : List Byte) (px py : Nat) : Bool :=
  decide (xb ≤ px) && decide (px < xb + 8) && decide (yb ≤ py) && (rows.getD (py - yb) 0x00).getLsbD (7 - (px - xb))

/-- The `n` bytes at `I` (R150). -/
def State.spriteAt (s : State) (n : Nat) : List Byte := (List.range n).map (fun r => Memory.read s.mem (s.i.toNat + r))

/-! ### Scripts of pin samples -/

/-- The loader's samples for a block of bytes from address `a` upward (R201). -/
def loaderScript (a : Nat) : List Byte → List Pins
  | [] => []
  | b :: bs => { Pins.low with ldWe := true, ldAddr := BitVec.ofNat 16 a, ldData := b } :: loaderScript (a + 1) bs

/-- `n` edges with the tick strobe alone (R185). -/
def tickScript (n : Nat) : List Pins := List.replicate n { Pins.low with tick60 := true }

/-! ### The samples of a whole run, and fairness (R187, R209) -/

/-- What the clock edge `n` edges from now samples: the script's entry, or after the script the free sample. -/
def State.sampleAt (s : State) (n : Nat) : Pins := s.script.getD n (freePins (s.cycle + n))

/-- FAIRNESS of the timer engine: whatever edge a run has reached, `tick60` is high at a later one. -/
def State.FairTicks (s : State) : Prop := ∀ n, ∃ m, n ≤ m ∧ (s.sampleAt m).tick60 = true

/-- FAIRNESS of the execution engine: whatever edge a run has reached, `step` is high at a later one. -/
def State.FairSteps (s : State) : Prop := ∀ n, ∃ m, n ≤ m ∧ (s.sampleAt m).step = true

/-- The state `n` clock edges from now. -/
def State.reaches (s : State) (n : Nat) (t : State) : Prop := Host.Core.run Sys2Proof.core n s = .next t

/-! ### Sequences of meanings -/

/-- The instructions executed one after the other, as long as each answers a next state. -/
def execAll : List Instr → State → Host.Outcome State Fault Refusal
  | [], s => .next s
  | i :: is, s =>
    match exec i s with
    | .next t => execAll is t
    | .fault r => .fault r
    | .refused r => .refused r

end Sys2Proof.Machine
end

