-- ==== Sys2Proof/Certificates/Slice0/Obligations.lean ====
section
/-! DEFINITION. The statements for the provers, in the order of OBLIGATIONS.json. Each docstring names the rule of spec/ it
formalises. In a statement about `exec`, `s.pc` is the post-fetch PC (40_fetch_decode.md R82). A statement about an instruction
says its encoding (the rule's `Encoding` line), its effect and its frame. -/

open Sys2Proof Sys2Proof.Machine

/-! ### Encoding and decoding (30_encoding.md) -/

/-- R64, R65: decoding the word of a well-formed instruction gives the instruction, for every operand. -/
def Obligations.EncodeThenDecode : Prop :=
  ∀ i : Instr, i.wellFormed = true → decode .nop (encode i) = .ok i

/-- R64, R65: each valid word has one meaning, and the encoder gives the word back. -/
def Obligations.DecodeThenEncode : Prop :=
  ∀ (w : Word) (i : Instr), decode .nop w = .ok i → encode i = w ∧ i.wellFormed = true

/-- R65: a word is the instruction of a row exactly when `w & mask = match`, after CLS and RET have been tried before SYS (whose
match is 0x0000). -/
def Obligations.WordDecodesToTheRowItMatches : Prop :=
  ∀ (w : Word) (j : Instr), (rowMatch j = 0x0000 → w ≠ 0x00E0 ∧ w ≠ 0x00EE) →
    (w &&& rowMask j = rowMatch j ↔ ∃ i, decode .nop w = .ok i ∧ rowMatch i = rowMatch j)

/-- R64, R66, R68: decoding is total, it fails in no other way than InvalidInstruction of the word itself, and under SYS_POLICY = nop
the words it refuses are exactly those of R66's table. -/
def Obligations.InvalidWordsAreExactlyTheListed : Prop :=
  (∀ (p : SysPolicy) (w : Word), (∃ i, decode p w = .ok i) ∨ decode p w = .error (.invalidInstruction w)) ∧
  ∀ w : Word, decode .nop w = .error (.invalidInstruction w) ↔
    (fieldOp w = 0x5 ∧ fieldN w ≠ 0x0) ∨
    (fieldOp w = 0x8 ∧ fieldN w ∈ [0x8, 0x9, 0xA, 0xB, 0xC, 0xD, 0xF]) ∨
    (fieldOp w = 0x9 ∧ fieldN w ≠ 0x0) ∨
    (fieldOp w = 0xE ∧ fieldKk w ≠ 0x9E ∧ fieldKk w ≠ 0xA1) ∨
    (fieldOp w = 0xF ∧ fieldKk w ∉ [0x07, 0x0A, 0x15, 0x18, 0x1E, 0x29, 0x33, 0x55, 0x65])

/-- R69, R108: CLS and RET are matched first under either policy; every other word of family 0x0 is SYS, a no-operation, under the
default SYS_POLICY = nop, and invalid under SYS_POLICY = invalid; the policy touches no other family (R66). -/
def Obligations.FamilyZeroFollowsTheSysPolicy : Prop :=
  Config.default.sysPolicy = .nop ∧
  (∀ p, decode p 0x00E0 = .ok .cls ∧ decode p 0x00EE = .ok .ret) ∧
  (∀ w : Word, fieldOp w = 0x0 → w ≠ 0x00E0 → w ≠ 0x00EE →
    decode .nop w = .ok (.sys (fieldNnn w)) ∧ decode .invalid w = .error (.invalidInstruction w)) ∧
  (∀ w : Word, fieldOp w ≠ 0x0 → decode .invalid w = decode .nop w) ∧
  ∀ (nnn : Addr12) (s : State), exec (.sys nnn) s = .next s

/-- R65 and the vectors of 95_test_vectors.md: words written out from the opcode map decode to the instruction they stand for. -/
def Obligations.DecodeReadsTheSpecsWords : Prop :=
  decode .nop 0x6005 = .ok (.ldByte 0 0x05) ∧ decode .nop 0xA050 = .ok (.ldI 0x050) ∧
  decode .nop 0xD005 = .ok (.drw 0 0 5) ∧ decode .nop 0x1200 = .ok (.jp 0x200) ∧
  decode .nop 0x8ABE = .ok (.shl 0xA 0xB) ∧ decode .nop 0x8124 = .ok (.addReg 1 2) ∧
  decode .nop 0xE2A1 = .ok (.sknp 2) ∧ decode .nop 0xF255 = .ok (.storeRegs 2) ∧
  decode .nop 0x8128 = .error (.invalidInstruction 0x8128)

/-! ### The step (40_fetch_decode.md) -/

/-- R80 to R84, R210: when the bytes at PC decode to `i`, the step is `exec i` on the state whose pins are sampled, whose tick, if
one falls on the same edge, is taken, and whose PC is advanced by 2. What the edge does around `exec` is stated with it; `pins`,
`script` and `cycle` are the model's own fields (log 2). -/
def Obligations.StepRunsTheDecodedInstruction : Prop :=
  ∀ (s : State) (i : Instr), s.steps → s.pc.toNat + 1 ≤ 0xFFF →
    decode s.config.sysPolicy (wordOfBytes (Memory.read s.mem s.pc.toNat) (Memory.read s.mem (s.pc.toNat + 1))) = .ok i →
    step s = exec i (s.atStep.setPc (s.pc + 2)) ∧
    s.atStep.dt.toNat = s.dt.toNat - (if s.nextPins.tick60 then 1 else 0) ∧ s.atStep.redraw = false ∧
    s.atStep.pins = s.nextPins ∧ s.atStep.script = s.script.tail ∧ s.atStep.cycle = s.cycle + 1 ∧
    s.atStep.config = s.config ∧ ChangesOnly (fun p => p.isEdge ∨ p = .delayTimer) s s.atStep

/-- R81: the byte at PC is the high byte of the word; PC > 0xFFF raises SegmentationFault(PC), PC = 0xFFF raises
SegmentationFault(0x1000); in both cases PC and everything else is unchanged and the machine halts. No alignment is required. -/
def Obligations.FetchReadsTwoBytesOrFaults : Prop :=
  ∀ s : State, s.steps →
    (s.pc.toNat + 1 ≤ 0xFFF →
      s.atStep.fetch = .ok (wordOfBytes (Memory.read s.mem s.pc.toNat) (Memory.read s.mem (s.pc.toNat + 1)))) ∧
    (0xFFF < s.pc.toNat → ∃ t, step s = .next t ∧ t.haltedBy (.segmentationFault s.pc) ∧
      ChangesOnly Part.isControl s.atStep t) ∧
    (s.pc.toNat = 0xFFF → ∃ t, step s = .next t ∧ t.haltedBy (.segmentationFault 0x1000) ∧
      ChangesOnly Part.isControl s.atStep t)

/-- R174 (R83): a fetched word that is not in the opcode map raises InvalidInstruction with the word as info, after PC has been
advanced past it; no other state has changed. -/
def Obligations.InvalidWordHaltsTheMachine : Prop :=
  ∀ s : State, s.steps → s.pc.toNat + 1 ≤ 0xFFF →
    decode s.config.sysPolicy s.wordAtPc = .error (.invalidInstruction s.wordAtPc) →
    ∃ t, step s = .next t ∧ t.haltedBy (.invalidInstruction s.wordAtPc) ∧ t.pc = s.pc + 2 ∧
      ChangesOnly (fun p => p.isControl ∨ p = .pc) s.atStep t

/-- R170, R180: fault entry latches the kind's code and its info, halts, and does nothing else; the codes are those of R170. -/
def Obligations.FaultEntryLatchesAndHalts : Prop :=
  (∀ (s : State) (f : FaultKind), (s.raise f).haltedBy f ∧ (s.raise f).halted = true ∧
    ChangesOnly Part.isControl s (s.raise f)) ∧
  ∀ w : Word,
    FaultKind.code (.segmentationFault w) = 1 ∧ FaultKind.info (.segmentationFault w) = w ∧
    FaultKind.code .invalidAddress = 2 ∧ FaultKind.info .invalidAddress = 0 ∧
    FaultKind.code (.invalidRegister w) = 3 ∧ FaultKind.info (.invalidRegister w) = w ∧
    FaultKind.code (.invalidInstruction w) = 4 ∧ FaultKind.info (.invalidInstruction w) = w ∧
    FaultKind.code .stackOverflow = 5 ∧ FaultKind.info .stackOverflow = 0 ∧
    FaultKind.code .infiniteLoop = 6 ∧ FaultKind.info .infiniteLoop = 0 ∧
    FaultKind.code .programLoadError = 7 ∧ FaultKind.info .programLoadError = 0 ∧
    FaultKind.code .stackUnderflow = 8 ∧ FaultKind.info .stackUnderflow = 0

/-- R87, R182: in HALT no step, no tick and no loader write happens, whatever the strobes do; in LOAD no step and no tick happens.
The redraw output is low (R153). -/
def Obligations.NoStepAndNoTickInLoadOrHalt : Prop :=
  ∀ s : State, s.nextPins.rst = false →
    (s.runState = .halt → ∃ t, step s = .next t ∧ t.redraw = false ∧ ChangesOnly Part.isEdge s t) ∧
    (s.runState = .load → s.nextPins.ldWe = false → s.nextPins.start = false →
      ∃ t, step s = .next t ∧ t.redraw = false ∧ ChangesOnly Part.isEdge s t)

/-! ### Reset, loading and the timer engine (10_state.md, 60_exceptions.md, 70_reset_and_hazards.md) -/

/-- R25 (with the font of R48): the value of every piece of state after reset. -/
def Obligations.ResetLeavesTheTable : Prop :=
  (∀ r, State.reset.getV r = 0x00) ∧ State.reset.i = 0x0000 ∧ State.reset.pc = 0x0200 ∧ State.reset.sp.val = 0 ∧
  (∀ k : Fin 16, State.reset.stack[k] = 0x0000) ∧ State.reset.dt = 0x00 ∧ State.reset.st = 0x00 ∧
  (∀ x y, Framebuffer.get State.reset.fb x y = false) ∧
  (List.range 80).map (Memory.read State.reset.mem) =
    [0xF0, 0x90, 0x90, 0x90, 0xF0] ++ [0x20, 0x60, 0x20, 0x20, 0x70] ++ [0xF0, 0x10, 0xF0, 0x80, 0xF0] ++
    [0xF0, 0x10, 0xF0, 0x10, 0xF0] ++ [0x90, 0x90, 0xF0, 0x10, 0x10] ++ [0xF0, 0x80, 0xF0, 0x10, 0xF0] ++
    [0xF0, 0x80, 0xF0, 0x90, 0xF0] ++ [0xF0, 0x10, 0x20, 0x40, 0x40] ++ [0xF0, 0x90, 0xF0, 0x90, 0xF0] ++
    [0xF0, 0x90, 0xF0, 0x10, 0xF0] ++ [0xF0, 0x90, 0xF0, 0x90, 0x90] ++ [0xE0, 0x90, 0xE0, 0x90, 0xE0] ++
    [0xF0, 0x80, 0x80, 0x80, 0xF0] ++ [0xE0, 0x90, 0x90, 0x90, 0xE0] ++ [0xF0, 0x80, 0xF0, 0x80, 0xF0] ++
    [0xF0, 0x80, 0xF0, 0x80, 0x80] ∧
  (∀ a, 0x050 ≤ a → Memory.read State.reset.mem a = 0x00) ∧
  State.reset.runState = .load ∧ State.reset.faultCode = 0 ∧ State.reset.faultInfo = 0x0000

/-- R200: while `rst` is sampled high every piece of state takes its reset value, from every state, HALT included, and nothing else
leaves HALT. The model's own fields (`Part.platform`) are not state and stay (log 12). -/
def Obligations.RstResetsFromEveryState : Prop :=
  (∀ s : State, s.nextPins.rst = true →
    ∃ t, step s = .next t ∧ ∀ p : Part, p ≠ .platform → p.same State.reset t) ∧
  ∀ s t : State, s.runState = .halt → step s = .next t → t.runState ≠ .halt → s.nextPins.rst = true

/-- R201, R202: in LOAD a clock edge with `ld_we` high writes one byte at `ld_addr`, and makes RUN_STATE RUN if `start` is high too;
above 0xFFF it raises SegmentationFault(ld_addr). That the machine halts, and does not run, where `start` is high on the faulting
edge is the model's choice (log 11). -/
def Obligations.LoaderWritesOneByte : Prop :=
  ∀ s : State, s.runState = .load → s.nextPins.rst = false → s.nextPins.ldWe = true →
    (s.nextPins.ldAddr.toNat ≤ 0xFFF → ∃ t, step s = .next t ∧
      Memory.read t.mem s.nextPins.ldAddr.toNat = s.nextPins.ldData ∧
      t.runState = (if s.nextPins.start then .run else .load) ∧ t.faultCode = s.faultCode ∧ t.faultInfo = s.faultInfo ∧
      ChangesOnly (fun p => p.isEdge ∨ p.isControl ∨ p = .byte s.nextPins.ldAddr.toNat) s t) ∧
    (0xFFF < s.nextPins.ldAddr.toNat → ∃ t, step s = .next t ∧ t.haltedBy (.segmentationFault s.nextPins.ldAddr) ∧
      ChangesOnly (fun p => p.isEdge ∨ p.isControl) s t)

/-- R202: `start` sampled high in LOAD makes RUN_STATE RUN and changes nothing else; with a loader write on the same edge
LoaderWritesOneByte says what happens. -/
def Obligations.StartLeavesLoad : Prop :=
  ∀ s : State, s.runState = .load → s.nextPins.rst = false → s.nextPins.ldWe = false → s.nextPins.start = true →
    ∃ t, step s = .next t ∧ t.runState = .run ∧ t.faultCode = s.faultCode ∧ t.faultInfo = s.faultInfo ∧
      ChangesOnly (fun p => p.isEdge ∨ p.isControl) s t

/-- R46, R201: driving the loader port with the bytes of a block, one a clock edge, does what `load_block` does, the fault of a block
that runs over the end of memory included. -/
def Obligations.LoaderPortIsLoadBlock : Prop :=
  ∀ (s : State) (data : List Byte) (start : Nat) (rest : List Pins),
    s.runState = .load → start ≤ 0xFFFF → s.script = loaderScript start data ++ rest →
    ∃ t, s.reaches data.length t ∧ t.script = rest ∧ t.config = s.config ∧
      ∀ p : Part, ¬ p.isEdge → p.same (s.loadBlock data start) t

/-- R185: one tick decrements DT where it is above zero and does nothing else; an edge in RUN with the `tick60` strobe and without the
`step` strobe is one tick, and outside RUN no tick is taken. -/
def Obligations.TickDecrementsDTWhileRunning : Prop :=
  ∀ s : State,
    (s.tick.dt.toNat = s.dt.toNat - 1 ∧ ChangesOnly (fun p => p = .delayTimer) s s.tick) ∧
    (s.runState = .run → s.nextPins.rst = false → s.nextPins.step = false →
      ∃ t, step s = .next t ∧ t.dt.toNat = s.dt.toNat - (if s.nextPins.tick60 then 1 else 0) ∧ t.redraw = false ∧
        ChangesOnly (fun p => p.isEdge ∨ p = .delayTimer) s t) ∧
    (s.runState ≠ .run → s.nextPins.rst = false → ∃ t, step s = .next t ∧ t.dt = s.dt)

/-- R187: after `n` ticks and no write DT is `max(v - n, 0)`, and nothing else has changed; and a run that stays in RUN for ever and
takes no step of LD DT, Vx brings DT to 0 after finitely many edges, which only the fairness of the timer engine gives (R209,
log 22). -/
def Obligations.TicksCountDown : Prop :=
  (∀ (n : Nat) (s : State) (rest : List Pins), s.runState = .run → s.script = tickScript n ++ rest →
    ∃ t, s.reaches n t ∧ t.dt.toNat = s.dt.toNat - n ∧ t.script = rest ∧
      ChangesOnly (fun p => p.isEdge ∨ p = .delayTimer) s t) ∧
  ∀ s : State, (∀ n t, s.reaches n t → t.runState = .run ∧ ∀ x, ¬ (t.steps ∧ t.fetches (.ldDTVx x))) →
    ∃ n t, s.reaches n t ∧ t.dt = 0x00

/-- R210: where both strobes are high on one edge, LD Vx, DT reads the decremented value and LD DT, Vx leaves the full written
value. -/
def Obligations.TickComesBeforeStep : Prop :=
  ∀ (s : State) (x : Reg), s.steps → s.nextPins.tick60 = true →
    (s.fetches (.ldVxDT x) → ∃ t, step s = .next t ∧ (t.getV x).toNat = s.dt.toNat - 1 ∧ t.dt.toNat = s.dt.toNat - 1) ∧
    (s.fetches (.ldDTVx x) → ∃ t, step s = .next t ∧ t.dt = s.getV x)

/-! ### Memory (20_memory.md) -/

/-- R41, R42, R43: a byte written at a valid address reads back and every other piece of state is as before; at an address above
0xFFF read and write raise SegmentationFault of that address. -/
def Obligations.MemoryRoundTripAndBounds : Prop :=
  ∀ (s : State) (a : Nat) (b : Byte),
    (a ≤ 0xFFF → s.memRead a = .ok (Memory.read s.mem a) ∧
      ∃ t, s.memWrite a b = .ok t ∧ t.memRead a = .ok b ∧ ChangesOnly (fun p => p = .byte a) s t) ∧
    (0xFFF < a → s.memRead a = .error (.segmentationFault (BitVec.ofNat 16 a)) ∧
      s.memWrite a b = .error (.segmentationFault (BitVec.ofNat 16 a)))

/-- R44: the two-byte read is big-endian, checks the high byte first, and reports the first address out of range. -/
def Obligations.WordReadIsBigEndian : Prop :=
  ∀ (s : State) (a : Nat),
    (a + 1 ≤ 0xFFF → ∃ w, s.memReadWord a = .ok w ∧
      w.toNat = (Memory.read s.mem a).toNat * 256 + (Memory.read s.mem (a + 1)).toNat) ∧
    (a = 0xFFF → s.memReadWord a = .error (.segmentationFault 0x1000)) ∧
    (0xFFF < a → s.memReadWord a = .error (.segmentationFault (BitVec.ofNat 16 a)))

/-- R55: a byte stored is seen by the very next fetch, also where the store is into the next instruction. -/
def Obligations.FetchSeesStores : Prop :=
  ∀ (s t u : State) (hi lo : Byte),
    s.memWrite s.pc.toNat hi = .ok t → t.memWrite (s.pc.toNat + 1) lo = .ok u → u.fetch = .ok (wordOfBytes hi lo)

/-! ### ALU and register instructions (42_alu.md) -/

/-- R126, R128: LD Vx, kk and LD Vx, Vy. -/
def Obligations.LoadsAndCopies : Prop :=
  ∀ (s : State) (x y : Reg) (kk : Byte),
    decodesTo (wordXkk 0x6000 x kk) (.ldByte x kk) ∧ decodesTo (wordXyn 0x8000 x y 0) (.ldReg x y) ∧
    (∃ t, exec (.ldByte x kk) s = .next t ∧ t.getV x = kk ∧ ChangesOnly (fun p => p = .reg x) s t) ∧
    (∃ t, exec (.ldReg x y) s = .next t ∧ t.getV x = s.getV y ∧ ChangesOnly (fun p => p = .reg x) s t)

/-- R129, R130, R131: OR, AND, XOR write Vx and nothing else: VF is left alone unless it is Vx. -/
def Obligations.LogicLeavesVFAlone : Prop :=
  ∀ (s : State) (x y : Reg),
    decodesTo (wordXyn 0x8000 x y 1) (.orReg x y) ∧ decodesTo (wordXyn 0x8000 x y 2) (.andReg x y) ∧
    decodesTo (wordXyn 0x8000 x y 3) (.xorReg x y) ∧
    (∃ t, exec (.orReg x y) s = .next t ∧ t.getV x = s.getV x ||| s.getV y ∧ ChangesOnly (fun p => p = .reg x) s t) ∧
    (∃ t, exec (.andReg x y) s = .next t ∧ t.getV x = s.getV x &&& s.getV y ∧ ChangesOnly (fun p => p = .reg x) s t) ∧
    (∃ t, exec (.xorReg x y) s = .next t ∧ t.getV x = s.getV x ^^^ s.getV y ∧ ChangesOnly (fun p => p = .reg x) s t)

/-- R127: ADD Vx, kk wraps modulo 256 and writes no flag. -/
def Obligations.AddImmediateWraps : Prop :=
  ∀ (s : State) (x : Reg) (kk : Byte), decodesTo (wordXkk 0x7000 x kk) (.addByte x kk) ∧
    ∃ t, exec (.addByte x kk) s = .next t ∧
    (t.getV x).toNat = ((s.getV x).toNat + kk.toNat) % 256 ∧ ChangesOnly (fun p => p = .reg x) s t

/-- R120: ADD Vx, Vy; VF = 1 iff the sum is at least 256, always written, and last where x is F. -/
def Obligations.AddSetsCarry : Prop :=
  ∀ (s : State) (x y : Reg), decodesTo (wordXyn 0x8000 x y 4) (.addReg x y) ∧ ∃ t, exec (.addReg x y) s = .next t ∧
    (x ≠ regF → (t.getV x).toNat = ((s.getV x).toNat + (s.getV y).toNat) % 256) ∧
    t.getV regF = (if 256 ≤ (s.getV x).toNat + (s.getV y).toNat then 0x01 else 0x00) ∧
    ChangesOnly (fun p => p = .reg x ∨ p = .reg regF) s t

/-- R121: SUB Vx, Vy; VF = 1 iff `V[x] >= V[y]`, always written, and last where x is F. -/
def Obligations.SubSetsNotBorrow : Prop :=
  ∀ (s : State) (x y : Reg), decodesTo (wordXyn 0x8000 x y 5) (.subReg x y) ∧ ∃ t, exec (.subReg x y) s = .next t ∧
    (x ≠ regF → (t.getV x).toNat = ((s.getV x).toNat + 256 - (s.getV y).toNat) % 256) ∧
    t.getV regF = (if (s.getV y).toNat ≤ (s.getV x).toNat then 0x01 else 0x00) ∧
    ChangesOnly (fun p => p = .reg x ∨ p = .reg regF) s t

/-- R122: SUBN Vx, Vy is Vy - Vx; VF = 1 iff `V[y] >= V[x]`, always written, and last where x is F. -/
def Obligations.SubnSetsNotBorrow : Prop :=
  ∀ (s : State) (x y : Reg), decodesTo (wordXyn 0x8000 x y 7) (.subnReg x y) ∧ ∃ t, exec (.subnReg x y) s = .next t ∧
    (x ≠ regF → (t.getV x).toNat = ((s.getV y).toNat + 256 - (s.getV x).toNat) % 256) ∧
    t.getV regF = (if (s.getV x).toNat ≤ (s.getV y).toNat then 0x01 else 0x00) ∧
    ChangesOnly (fun p => p = .reg x ∨ p = .reg regF) s t

/-- R123, R124: SHR and SHL shift Vx by one; VF takes the bit shifted out, except where x is F, when the shifted value is written
last; the `y` field is ignored. -/
def Obligations.ShiftsMoveOneBit : Prop :=
  ∀ (s : State) (x y : Reg),
    decodesTo (wordXyn 0x8000 x y 0x6) (.shr x y) ∧ decodesTo (wordXyn 0x8000 x y 0xE) (.shl x y) ∧
    (∃ t, exec (.shr x y) s = .next t ∧ (t.getV x).toNat = (s.getV x).toNat / 2 ∧
      (x ≠ regF → (t.getV regF).toNat = (s.getV x).toNat % 2) ∧
      ChangesOnly (fun p => p = .reg x ∨ p = .reg regF) s t) ∧
    (∃ t, exec (.shl x y) s = .next t ∧ (t.getV x).toNat = (s.getV x).toNat * 2 % 256 ∧
      (x ≠ regF → (t.getV regF).toNat = (s.getV x).toNat / 128) ∧
      ChangesOnly (fun p => p = .reg x ∨ p = .reg regF) s t)

/-- R125: RND writes `kk & rnd`, for every value of the `rnd` input, and nothing else; a step that fetches it takes the `rnd` input
of its own clock edge. -/
def Obligations.RndMasksTheRandomByte : Prop :=
  ∀ (s : State) (x : Reg) (kk : Byte),
    decodesTo (wordXkk 0xC000 x kk) (.rnd x kk) ∧
    (∃ t, exec (.rnd x kk) s = .next t ∧ t.getV x = kk &&& s.pins.rnd ∧ ChangesOnly (fun p => p = .reg x) s t) ∧
    (s.steps → s.fetches (.rnd x kk) → ∃ t, step s = .next t ∧ t.getV x = kk &&& s.nextPins.rnd)

/-! ### Index register and memory instructions (43_index_memory.md) -/

/-- R140, R141, R142: LD I, nnn; ADD I, Vx modulo 65536; LD F, Vx. None writes VF or anything but I. -/
def Obligations.IndexRegisterWrites : Prop :=
  ∀ (s : State) (x : Reg) (nnn : Addr12),
    decodesTo (wordNnn 0xA000 nnn) (.ldI nnn) ∧ decodesTo (wordXkk 0xF000 x 0x1E) (.addI x) ∧
    decodesTo (wordXkk 0xF000 x 0x29) (.ldF x) ∧
    (∃ t, exec (.ldI nnn) s = .next t ∧ t.i.toNat = nnn.toNat ∧ ChangesOnly (fun p => p = .index) s t) ∧
    (∃ t, exec (.addI x) s = .next t ∧ t.i.toNat = (s.i.toNat + (s.getV x).toNat) % 65536 ∧
      ChangesOnly (fun p => p = .index) s t) ∧
    (∃ t, exec (.ldF x) s = .next t ∧ t.i.toNat = (s.getV x).toNat % 16 * 5 ∧ ChangesOnly (fun p => p = .index) s t)

/-- R143: LD B, Vx writes hundreds, tens and ones at I, I + 1, I + 2; the first address above 0xFFF raises SegmentationFault, the
digits before it stay written. -/
def Obligations.BcdWritesThreeDigits : Prop :=
  ∀ (s : State) (x : Reg),
    decodesTo (wordXkk 0xF000 x 0x33) (.ldB x) ∧
    (s.i.toNat + 2 ≤ 0xFFF → ∃ t, exec (.ldB x) s = .next t ∧
      (Memory.read t.mem s.i.toNat).toNat = (s.getV x).toNat / 100 ∧
      (Memory.read t.mem (s.i.toNat + 1)).toNat = (s.getV x).toNat / 10 % 10 ∧
      (Memory.read t.mem (s.i.toNat + 2)).toNat = (s.getV x).toNat % 10 ∧
      ChangesOnly (fun p => ∃ k < 3, p = .byte (s.i.toNat + k)) s t) ∧
    (0xFFF < s.i.toNat + 2 → ∃ t, exec (.ldB x) s = .next t ∧
      t.haltedBy (.segmentationFault (if s.i.toNat ≤ 0xFFF then 0x1000 else s.i)) ∧
      (s.i.toNat ≤ 0xFFF → (Memory.read t.mem s.i.toNat).toNat = (s.getV x).toNat / 100) ∧
      (s.i.toNat + 1 ≤ 0xFFF → (Memory.read t.mem (s.i.toNat + 1)).toNat = (s.getV x).toNat / 10 % 10) ∧
      ChangesOnly (fun p => p.isControl ∨ ∃ k < 3, s.i.toNat + k ≤ 0xFFF ∧ p = .byte (s.i.toNat + k)) s t)

/-- R144: LD [I], Vx stores V0..Vx at I upward; the first address above 0xFFF raises SegmentationFault, the bytes before it stay
written. I and the registers are unchanged. -/
def Obligations.StoreRegsWritesTheBlock : Prop :=
  ∀ (s : State) (x : Reg),
    decodesTo (wordXkk 0xF000 x 0x55) (.storeRegs x) ∧
    (s.i.toNat + x.val ≤ 0xFFF → ∃ t, exec (.storeRegs x) s = .next t ∧
      (∀ k : Reg, k ≤ x → Memory.read t.mem (s.i.toNat + k.val) = s.getV k) ∧
      ChangesOnly (fun p => ∃ k : Reg, k ≤ x ∧ p = .byte (s.i.toNat + k.val)) s t) ∧
    (0xFFF < s.i.toNat + x.val → ∃ t, exec (.storeRegs x) s = .next t ∧
      t.haltedBy (.segmentationFault (if s.i.toNat ≤ 0xFFF then 0x1000 else s.i)) ∧
      (∀ k : Reg, k ≤ x → s.i.toNat + k.val ≤ 0xFFF → Memory.read t.mem (s.i.toNat + k.val) = s.getV k) ∧
      ChangesOnly
        (fun p => p.isControl ∨ ∃ k : Reg, k ≤ x ∧ s.i.toNat + k.val ≤ 0xFFF ∧ p = .byte (s.i.toNat + k.val)) s t)

/-- R145: LD Vx, [I] loads V0..Vx from I upward; the first address above 0xFFF raises SegmentationFault, the registers before it
keep their new values. I and memory are unchanged. -/
def Obligations.LoadRegsReadsTheBlock : Prop :=
  ∀ (s : State) (x : Reg),
    decodesTo (wordXkk 0xF000 x 0x65) (.loadRegs x) ∧
    (s.i.toNat + x.val ≤ 0xFFF → ∃ t, exec (.loadRegs x) s = .next t ∧
      (∀ k : Reg, k ≤ x → t.getV k = Memory.read s.mem (s.i.toNat + k.val)) ∧
      ChangesOnly (fun p => ∃ k : Reg, k ≤ x ∧ p = .reg k) s t) ∧
    (0xFFF < s.i.toNat + x.val → ∃ t, exec (.loadRegs x) s = .next t ∧
      t.haltedBy (.segmentationFault (if s.i.toNat ≤ 0xFFF then 0x1000 else s.i)) ∧
      (∀ k : Reg, k ≤ x → s.i.toNat + k.val ≤ 0xFFF → t.getV k = Memory.read s.mem (s.i.toNat + k.val)) ∧
      ChangesOnly (fun p => p.isControl ∨ ∃ k : Reg, k ≤ x ∧ s.i.toNat + k.val ≤ 0xFFF ∧ p = .reg k) s t)

/-- R144, R145: what LD [I], Vx stored, LD Vx, [I] brings back, whatever became of the registers in between, as long as I and memory
are as the store left them. -/
def Obligations.StoreThenLoadRestores : Prop :=
  ∀ (s t t' u : State) (x : Reg), s.i.toNat + x.val ≤ 0xFFF → exec (.storeRegs x) s = .next t →
    t'.i = t.i → t'.mem = t.mem → exec (.loadRegs x) t' = .next u → ∀ k : Reg, k ≤ x → u.getV k = s.getV k

/-! ### Framebuffer instructions (44_display.md) -/

/-- R150, R153: where the sprite can be read, every pixel becomes its old value XOR the sprite bit that falls on it (origin wrapped,
sprite clipped), VF is 1 exactly when some flipped pixel was on, redraw is high, and nothing else changes. Where one of the rows
lies above 0xFFF, also a row that would be clipped, SegmentationFault of the first such row is raised and framebuffer, VF and redraw
stay exactly as they were. -/
def Obligations.DrawXorsTheSpriteOrFaults : Prop :=
  ∀ (s : State) (x y : Reg) (n : Fin 16),
    decodesTo (wordXyn 0xD000 x y n) (.drw x y n) ∧
    (n.val = 0 ∨ s.i.toNat + (n.val - 1) ≤ 0xFFF → ∃ t, exec (.drw x y n) s = .next t ∧
      (∀ (px : Fin 64) (py : Fin 32), Framebuffer.get t.fb px py =
        (Framebuffer.get s.fb px py ^^
          spriteBit ((s.getV x).toNat % 64) ((s.getV y).toNat % 32) (s.spriteAt n) px py)) ∧
      ((∃ (px : Fin 64) (py : Fin 32), Framebuffer.get s.fb px py = true ∧
          spriteBit ((s.getV x).toNat % 64) ((s.getV y).toNat % 32) (s.spriteAt n) px py = true) →
        t.getV regF = 0x01) ∧
      ((∀ (px : Fin 64) (py : Fin 32), Framebuffer.get s.fb px py = true →
          spriteBit ((s.getV x).toNat % 64) ((s.getV y).toNat % 32) (s.spriteAt n) px py = false) →
        t.getV regF = 0x00) ∧
      t.redraw = true ∧ ChangesOnly (fun p => p = .screen ∨ p = .redraw ∨ p = .reg regF) s t) ∧
    (n.val ≠ 0 → 0xFFF < s.i.toNat + (n.val - 1) → ∃ t, exec (.drw x y n) s = .next t ∧
      t.haltedBy (.segmentationFault (if s.i.toNat ≤ 0xFFF then 0x1000 else s.i)) ∧ ChangesOnly Part.isControl s t)

/-- R150 (S6 of 95_test_vectors.md): drawing the same sprite twice at the same place brings every pixel back, and the second draw
reports a collision when the first turned a pixel on. The coordinates are not VF, which the first draw overwrites. -/
def Obligations.DrawTwiceRestores : Prop :=
  ∀ (s t u : State) (x y : Reg) (n : Fin 16), x ≠ regF → y ≠ regF → (n.val = 0 ∨ s.i.toNat + (n.val - 1) ≤ 0xFFF) →
    exec (.drw x y n) s = .next t → exec (.drw x y n) t = .next u →
    u.fb = s.fb ∧
    ((∃ (px : Fin 64) (py : Fin 32), Framebuffer.get s.fb px py = false ∧ Framebuffer.get t.fb px py = true) →
      u.getV regF = 0x01)

/-- R151: CLS turns every pixel off and changes nothing else: VF and redraw stay. -/
def Obligations.ClsTurnsEveryPixelOff : Prop :=
  ∀ s : State, decodesTo 0x00E0 .cls ∧ ∃ t, exec .cls s = .next t ∧ (∀ px py, Framebuffer.get t.fb px py = false) ∧
    ChangesOnly (fun p => p = .screen) s t

/-! ### Control transfer (41_control_flow.md) -/

/-- R100: JP nnn sets PC = nnn, unless nnn is its own address, the post-fetch PC less 2: then InfiniteLoop is raised and the jump
is not performed. -/
def Obligations.JumpOrInfiniteLoop : Prop :=
  ∀ (s : State) (nnn : Addr12),
    decodesTo (wordNnn 0x1000 nnn) (.jp nnn) ∧
    (BitVec.zeroExtend 16 nnn ≠ s.pc - 2 → ∃ t, exec (.jp nnn) s = .next t ∧ t.pc.toNat = nnn.toNat ∧
      ChangesOnly (fun p => p = .pc) s t) ∧
    (BitVec.zeroExtend 16 nnn = s.pc - 2 → ∃ t, exec (.jp nnn) s = .next t ∧ t.haltedBy .infiniteLoop ∧
      ChangesOnly Part.isControl s t)

/-- R103: JP V0, nnn sets PC = nnn + V0, not masked and without self-jump detection. -/
def Obligations.JumpV0AddsWithoutMask : Prop :=
  ∀ (s : State) (nnn : Addr12), decodesTo (wordNnn 0xB000 nnn) (.jpV0 nnn) ∧
    ∃ t, exec (.jpV0 nnn) s = .next t ∧ t.pc.toNat = nnn.toNat + (s.getV 0).toNat ∧
    ChangesOnly (fun p => p = .pc) s t

/-- R101: CALL writes STACK[SP] = post-fetch PC, adds 1 to SP and jumps; with SP = 16 it raises StackOverflow and pushes nothing. -/
def Obligations.CallPushesThePostFetchPc : Prop :=
  ∀ (s : State) (nnn : Addr12),
    decodesTo (wordNnn 0x2000 nnn) (.call nnn) ∧
    (s.sp.val < 16 → ∃ t, exec (.call nnn) s = .next t ∧ t.sp.val = s.sp.val + 1 ∧ t.pc.toNat = nnn.toNat ∧
      (∀ k : Fin 16, t.stack[k] = if k.val = s.sp.val then s.pc else s.stack[k]) ∧
      ChangesOnly (fun p => p = .pc ∨ p = .callStack) s t) ∧
    (s.sp.val = 16 → ∃ t, exec (.call nnn) s = .next t ∧ t.haltedBy .stackOverflow ∧ ChangesOnly Part.isControl s t)

/-- R102: RET subtracts 1 from SP and sets PC = STACK[SP], the entry not cleared; with SP = 0 it raises StackUnderflow and SP and PC
stay. -/
def Obligations.RetPopsIntoPc : Prop :=
  ∀ s : State,
    decodesTo 0x00EE .ret ∧
    (∀ k : Fin 16, s.sp.val = k.val + 1 → ∃ t, exec .ret s = .next t ∧ t.sp.val = k.val ∧ t.pc = s.stack[k] ∧
      t.stack = s.stack ∧ ChangesOnly (fun p => p = .pc ∨ p = .callStack) s t) ∧
    (s.sp.val = 0 → ∃ t, exec .ret s = .next t ∧ t.haltedBy .stackUnderflow ∧ ChangesOnly Part.isControl s t)

/-- R15, R16, R101, R102: calls that fit on the stack all succeed, and as many returns restore SP, the entries below it and the PC
the first call pushed (LIFO order). -/
def Obligations.NestedCallsReturnInOrder : Prop :=
  ∀ (targets : List Addr12) (s : State), s.sp.val + targets.length ≤ 16 →
    ∃ t, execAll (targets.map Instr.call) s = .next t ∧ t.sp.val = s.sp.val + targets.length ∧
      ChangesOnly (fun p => p = .pc ∨ p = .callStack) s t ∧
      ∃ u, execAll (List.replicate targets.length Instr.ret) t = .next u ∧ u.sp = s.sp ∧ u.pc = s.pc ∧
        (∀ k : Fin 16, k.val < s.sp.val → u.stack[k] = s.stack[k]) ∧
        ChangesOnly (fun p => p = .pc ∨ p = .callStack) s u

/-- R104, R105, R106, R107: the four compare-and-skip instructions add 2 to the post-fetch PC when their condition holds and change
nothing else. -/
def Obligations.SkipsOnRegisters : Prop :=
  ∀ (s : State) (x y : Reg) (kk : Byte),
    decodesTo (wordXkk 0x3000 x kk) (.seByte x kk) ∧ decodesTo (wordXkk 0x4000 x kk) (.sneByte x kk) ∧
    decodesTo (wordXyn 0x5000 x y 0) (.seReg x y) ∧ decodesTo (wordXyn 0x9000 x y 0) (.sneReg x y) ∧
    (∃ t, exec (.seByte x kk) s = .next t ∧ t.pc = (if s.getV x = kk then s.pc + 2 else s.pc) ∧
      ChangesOnly (fun p => p = .pc) s t) ∧
    (∃ t, exec (.sneByte x kk) s = .next t ∧ t.pc = (if s.getV x = kk then s.pc else s.pc + 2) ∧
      ChangesOnly (fun p => p = .pc) s t) ∧
    (∃ t, exec (.seReg x y) s = .next t ∧ t.pc = (if s.getV x = s.getV y then s.pc + 2 else s.pc) ∧
      ChangesOnly (fun p => p = .pc) s t) ∧
    (∃ t, exec (.sneReg x y) s = .next t ∧ t.pc = (if s.getV x = s.getV y then s.pc else s.pc + 2) ∧
      ChangesOnly (fun p => p = .pc) s t)

/-! ### Timer and key instructions (45_timers_keys.md) -/

/-- R163, R164, R166: SKP and SKNP test the key numbered by the low nibble of Vx; the `keys` input is that of the step's own clock
edge, and tied to 0x0000 where no keypad is attached, which is the default. -/
def Obligations.SkipsOnKeys : Prop :=
  (∀ (s : State) (x : Reg),
    decodesTo (wordXkk 0xE000 x 0x9E) (.skp x) ∧ decodesTo (wordXkk 0xE000 x 0xA1) (.sknp x) ∧
    (∃ t, exec (.skp x) s = .next t ∧
      t.pc = (if s.keysIn.getLsbD ((s.getV x).toNat % 16) then s.pc + 2 else s.pc) ∧ ChangesOnly (fun p => p = .pc) s t) ∧
    (∃ t, exec (.sknp x) s = .next t ∧
      t.pc = (if s.keysIn.getLsbD ((s.getV x).toNat % 16) then s.pc else s.pc + 2) ∧ ChangesOnly (fun p => p = .pc) s t)) ∧
  Config.default.keysPresent = false ∧
  ∀ s : State, s.atStep.keysIn = (if s.config.keysPresent then s.nextPins.keys else 0x0000)

/-- R165: LD Vx, K goes back to itself while no key is down, and otherwise puts the smallest number of a key that is down in Vx; a
step that fetches it with no key down leaves PC where it was and changes nothing but the edge's own fields and DT by its tick. -/
def Obligations.KeyWaitRepeatsOrCompletes : Prop :=
  ∀ (s : State) (x : Reg),
    decodesTo (wordXkk 0xF000 x 0x0A) (.ldVxK x) ∧
    (s.keysIn = 0x0000 → ∃ t, exec (.ldVxK x) s = .next t ∧ t.pc = s.pc - 2 ∧ ChangesOnly (fun p => p = .pc) s t) ∧
    (∀ k : Fin 16, s.keysIn.getLsbD k.val = true → (∀ j : Fin 16, j < k → s.keysIn.getLsbD j.val = false) →
      ∃ t, exec (.ldVxK x) s = .next t ∧ (t.getV x).toNat = k.val ∧ ChangesOnly (fun p => p = .reg x) s t) ∧
    (s.steps → s.fetches (.ldVxK x) → s.atStep.keysIn = 0x0000 →
      ∃ t, step s = .next t ∧ t.pc = s.pc ∧ ChangesOnly (fun p => p.isEdge ∨ p = .delayTimer) s t)

/-- R160, R161, R162: LD Vx, DT; LD DT, Vx; LD ST, Vx. -/
def Obligations.TimerTransfers : Prop :=
  ∀ (s : State) (x : Reg),
    decodesTo (wordXkk 0xF000 x 0x07) (.ldVxDT x) ∧ decodesTo (wordXkk 0xF000 x 0x15) (.ldDTVx x) ∧
    decodesTo (wordXkk 0xF000 x 0x18) (.ldSTVx x) ∧
    (∃ t, exec (.ldVxDT x) s = .next t ∧ t.getV x = s.dt ∧ ChangesOnly (fun p => p = .reg x) s t) ∧
    (∃ t, exec (.ldDTVx x) s = .next t ∧ t.dt = s.getV x ∧ ChangesOnly (fun p => p = .delayTimer) s t) ∧
    (∃ t, exec (.ldSTVx x) s = .next t ∧ t.st = s.getV x ∧ ChangesOnly (fun p => p = .soundTimer) s t)

/-! ### Whole-machine rules -/

/-- R10, R24: over all instructions, a register that the 'write' rows of R10 do not name is unchanged; in particular VF is written as
a side effect by ADD, SUB, SUBN, SHR, SHL and DRW alone. -/
def Obligations.RegistersWrittenAreTheTable : Prop :=
  ∀ (i : Instr) (s t : State) (r : Reg), exec i s = .next t → writesReg i r = false → t.getV r = s.getV r

/-- R19, R153: only CLS and DRW write the framebuffer, and only DRW raises redraw. -/
def Obligations.ScreenWrittenByClsAndDrw : Prop :=
  ∀ (i : Instr) (s t : State), exec i s = .next t → (∀ x y n, i ≠ .drw x y n) →
    t.redraw = s.redraw ∧ (i ≠ .cls → t.fb = s.fb)

/-- R12, R14, R15, R17, R18, R40, R179: only LD B and LD [I] write memory, only CALL and RET the stack, only LD I, ADD I and LD F the
index register, only LD DT the delay timer, only LD ST the sound timer; only JP, CALL, RET, JP V0, the skips and LD Vx, K move PC
from its post-fetch value; only the instructions that can raise a fault touch RUN_STATE, FAULT_CODE and FAULT_INFO; and no
instruction writes the platform. -/
def Obligations.OwnersOfTheRestOfTheState : Prop :=
  ∀ (i : Instr) (s t : State), exec i s = .next t →
    ((∀ x, i ≠ .ldB x ∧ i ≠ .storeRegs x) → t.mem = s.mem) ∧
    ((∀ nnn, i ≠ .call nnn) → t.stack = s.stack ∧ (i ≠ .ret → t.sp = s.sp)) ∧
    ((∀ nnn x, i ≠ .ldI nnn ∧ i ≠ .addI x ∧ i ≠ .ldF x) → t.i = s.i) ∧
    ((∀ x, i ≠ .ldDTVx x) → t.dt = s.dt) ∧
    ((∀ x, i ≠ .ldSTVx x) → t.st = s.st) ∧
    (writesPc i = false → t.pc = s.pc) ∧
    (raisesCode i = 0 → Part.control.same s t) ∧
    Part.platform.same s t

/-- R179: inside Execute each instruction can raise one kind of fault only: JP InfiniteLoop, CALL StackOverflow, RET StackUnderflow,
the memory instructions and DRW SegmentationFault, and every other none. -/
def Obligations.ExecRaisesOnlyItsKind : Prop :=
  ∀ (i : Instr) (s t : State), exec i s = .next t →
    Part.control.same s t ∨ (t.runState = .halt ∧ t.faultCode = raisesCode i ∧ raisesCode i ≠ 0)

/-- R207: DT does not rise on any clock edge unless that edge takes a step and the step is LD DT, Vx. -/
def Obligations.DelayTimerNeverRises : Prop :=
  ∀ s t : State, step s = .next t → (∀ x, ¬ (s.steps ∧ s.fetches (.ldDTVx x))) → t.dt.toNat ≤ s.dt.toNat

/-- R153: redraw is high after a clock edge exactly when that edge's step is a DRW that completes. -/
def Obligations.RedrawPulsesAfterDrwOnly : Prop :=
  ∀ s t : State, step s = .next t →
    (t.redraw = true ↔
      s.steps ∧ ∃ x y n, s.fetches (.drw x y n) ∧ (n.val = 0 ∨ s.i.toNat + (n.val - 1) ≤ 0xFFF))

/-- R88, R176, R204: a run in RUN ends normally at a clock edge exactly when that edge's step is a JP to its own address; no other
loop is detected. -/
def Obligations.RunEndsNormallyAtASelfJumpOnly : Prop :=
  ∀ s t : State, s.runState = .run → step s = .next t →
    (t.endedNormally ↔ s.steps ∧ ∃ nnn : Addr12, s.fetches (.jp nnn) ∧ BitVec.zeroExtend 16 nnn = s.pc)

/-- R22, R182, R202: outside LOAD and with `rst` low, the pins `start`, `ld_we`, `ld_addr` and `ld_data` have no effect: two edges
that differ in them alone leave the same state. -/
def Obligations.LoaderPinsIgnoredOutsideLoad : Prop :=
  ∀ (s : State) (p : Pins) (rest : List Pins) (start ldWe : Bool) (ldAddr : Word) (ldData : Byte),
    s.runState ≠ .load → p.rst = false → s.script = p :: rest →
    ∃ t u, step s = .next t ∧
      step { s with script := { p with start := start, ldWe := ldWe, ldAddr := ldAddr, ldData := ldData } :: rest }
        = .next u ∧
      ∀ q : Part, q ≠ .platform → q.same t u

/-! ### Fairness (70_reset_and_hazards.md R209) -/

/-- R209: from every state the samples of the coming edges are the script's and then the free ones, and in every run ticks happen
infinitely often, and so do steps. That steps do, and the form of the free strobes, is the model's choice (log 22). -/
def Obligations.TicksAndStepsComeInfinitelyOften : Prop :=
  ∀ s : State, (∀ n, ∃ t, s.reaches n t ∧ t.nextPins = s.sampleAt n) ∧ s.FairTicks ∧ s.FairSteps

/-! ### Invariants -/

/-- R20, R21, R153, R170 to R178: every clock edge keeps the canonical form of memory (the model's own representation, log 9), the
coherence of the fault latch (no code 2, 3 or 7 is ever latched; deduced from R21 and R170 to R178, log 21) and redraw low outside
RUN. -/
def Obligations.StepKeepsInv : Prop :=
  ∀ s t : State, s.Inv → step s = .next t → t.Inv

/-- R25: the invariant of memory (log 9), fault latch and redraw (log 8) holds at reset. -/
def Obligations.ResetMeetsInv : Prop := State.reset.Inv

/-- R14: every clock edge keeps PC at most 0x10FE and the entries on the stack at most 0x1000, so PC never wraps. -/
def Obligations.StepKeepsPcInv : Prop :=
  ∀ s t : State, s.PcInv → step s = .next t → t.PcInv

/-- R25: the bound holds at reset. -/
def Obligations.ResetMeetsPcInv : Prop := State.reset.PcInv
end

