-- ==== Sys2Proof/Laws/Decode.lean ====
section
/-! SUPPORT. Fields of encoded words, for each of the three shapes of word, and the fixed bits of a word as its fields. -/

namespace Sys2Proof

theorem shiftLeft_or (a b k : Nat) (h : b < 2 ^ k) : a <<< k ||| b = a * 2 ^ k + b := by
  rw [← Nat.shiftLeft_add_eq_or_of_lt h, Nat.shiftLeft_eq]

theorem toNat_extractLsb' (w : Word) (a n : Nat) : (w.extractLsb' a n).toNat = w.toNat / 2 ^ a % 2 ^ n := by
  rw [BitVec.extractLsb'_toNat, Nat.shiftRight_eq_div_pow]

@[simp] theorem toNat_nibbleOfReg (x : Reg) : (nibbleOfReg x).toNat = x.val := by
  simp [nibbleOfReg]

@[simp] theorem regOfNibble_nibbleOfReg (x : Reg) : regOfNibble (nibbleOfReg x) = x :=
  Fin.ext (toNat_nibbleOfReg x)

@[simp] theorem nibbleOfReg_regOfNibble (b : Nibble) : nibbleOfReg (regOfNibble b) = b :=
  BitVec.eq_of_toNat_eq (toNat_nibbleOfReg _)

/-! ### The three shapes as numbers -/

theorem toNat_encodeNnn (op : Nibble) (nnn : Addr12) : (encodeNnn op nnn).toNat = op.toNat * 4096 + nnn.toNat :=
  (BitVec.toNat_append _ _).trans (shiftLeft_or _ _ 12 nnn.isLt)

theorem toNat_encodeXkk (op : Nibble) (x : Reg) (kk : Byte) :
    (encodeXkk op x kk).toNat = op.toNat * 4096 + x.val * 256 + kk.toNat := by
  have h : (encodeXkk op x kk).toNat = (op.toNat <<< 4 ||| (nibbleOfReg x).toNat) <<< 8 ||| kk.toNat :=
    (BitVec.toNat_append _ _).trans (congrArg (· <<< 8 ||| kk.toNat) (BitVec.toNat_append _ _))
  rw [h, shiftLeft_or _ _ 4 (nibbleOfReg x).isLt, shiftLeft_or _ _ 8 kk.isLt, toNat_nibbleOfReg]; omega

theorem toNat_encodeXyn (op : Nibble) (x y : Reg) (n : Nibble) :
    (encodeXyn op x y n).toNat = op.toNat * 4096 + x.val * 256 + y.val * 16 + n.toNat := by
  have h : (encodeXyn op x y n).toNat =
      ((op.toNat <<< 4 ||| (nibbleOfReg x).toNat) <<< 4 ||| (nibbleOfReg y).toNat) <<< 4 ||| n.toNat :=
    (BitVec.toNat_append _ _).trans (congrArg (· <<< 4 ||| n.toNat)
      ((BitVec.toNat_append _ _).trans (congrArg (· <<< 4 ||| (nibbleOfReg y).toNat) (BitVec.toNat_append _ _))))
  rw [h, shiftLeft_or _ _ 4 (nibbleOfReg x).isLt, shiftLeft_or _ _ 4 (nibbleOfReg y).isLt, shiftLeft_or _ _ 4 n.isLt,
    toNat_nibbleOfReg, toNat_nibbleOfReg]; omega

theorem toNat_wordOfBytes (hi lo : Byte) : (wordOfBytes hi lo).toNat = hi.toNat * 256 + lo.toNat :=
  (BitVec.toNat_append _ _).trans (shiftLeft_or _ _ 8 lo.isLt)

/-- A word is its two bytes, high byte first. -/
@[simp] theorem wordOfBytes_hiByte_loByte (w : Word) : wordOfBytes (hiByte w) (loByte w) = w := by
  apply BitVec.eq_of_toNat_eq
  rw [toNat_wordOfBytes, hiByte, loByte, toNat_extractLsb', toNat_extractLsb']
  have := w.isLt; omega

/-! ### Fields of the three shapes -/

@[simp] theorem fieldOp_encodeNnn (op : Nibble) (nnn : Addr12) : fieldOp (encodeNnn op nnn) = op := by
  apply BitVec.eq_of_toNat_eq
  rw [fieldOp, toNat_extractLsb', toNat_encodeNnn]; have := nnn.isLt; omega

@[simp] theorem fieldNnn_encodeNnn (op : Nibble) (nnn : Addr12) : fieldNnn (encodeNnn op nnn) = nnn := by
  apply BitVec.eq_of_toNat_eq
  rw [fieldNnn, toNat_extractLsb', toNat_encodeNnn]; have := nnn.isLt; omega

@[simp] theorem fieldOp_encodeXkk (op : Nibble) (x : Reg) (kk : Byte) : fieldOp (encodeXkk op x kk) = op := by
  apply BitVec.eq_of_toNat_eq
  rw [fieldOp, toNat_extractLsb', toNat_encodeXkk]; omega

@[simp] theorem fieldX_encodeXkk (op : Nibble) (x : Reg) (kk : Byte) : fieldX (encodeXkk op x kk) = x := by
  apply Fin.ext
  simp only [fieldX, regOfNibble, toNat_extractLsb', toNat_encodeXkk]; omega

@[simp] theorem fieldKk_encodeXkk (op : Nibble) (x : Reg) (kk : Byte) : fieldKk (encodeXkk op x kk) = kk := by
  apply BitVec.eq_of_toNat_eq
  rw [fieldKk, toNat_extractLsb', toNat_encodeXkk]; omega

@[simp] theorem fieldOp_encodeXyn (op : Nibble) (x y : Reg) (n : Nibble) : fieldOp (encodeXyn op x y n) = op := by
  apply BitVec.eq_of_toNat_eq
  rw [fieldOp, toNat_extractLsb', toNat_encodeXyn]; omega

@[simp] theorem fieldX_encodeXyn (op : Nibble) (x y : Reg) (n : Nibble) : fieldX (encodeXyn op x y n) = x := by
  apply Fin.ext
  simp only [fieldX, regOfNibble, toNat_extractLsb', toNat_encodeXyn]; omega

@[simp] theorem fieldY_encodeXyn (op : Nibble) (x y : Reg) (n : Nibble) : fieldY (encodeXyn op x y n) = y := by
  apply Fin.ext
  simp only [fieldY, regOfNibble, toNat_extractLsb', toNat_encodeXyn]; omega

@[simp] theorem fieldN_encodeXyn (op : Nibble) (x y : Reg) (n : Nibble) : fieldN (encodeXyn op x y n) = n := by
  apply BitVec.eq_of_toNat_eq
  rw [fieldN, toNat_extractLsb', toNat_encodeXyn]; omega

/-! ### A word from its fields -/

theorem encodeNnn_fields (w : Word) : encodeNnn (fieldOp w) (fieldNnn w) = w := by
  apply BitVec.eq_of_toNat_eq
  simp only [toNat_encodeNnn, fieldOp, fieldNnn, toNat_extractLsb']; have := w.isLt; omega

theorem encodeXkk_fields (w : Word) : encodeXkk (fieldOp w) (fieldX w) (fieldKk w) = w := by
  apply BitVec.eq_of_toNat_eq
  simp only [toNat_encodeXkk, fieldOp, fieldX, regOfNibble, fieldKk, toNat_extractLsb']; have := w.isLt; omega

theorem encodeXyn_fields (w : Word) : encodeXyn (fieldOp w) (fieldX w) (fieldY w) (fieldN w) = w := by
  apply BitVec.eq_of_toNat_eq
  simp only [toNat_encodeXyn, fieldOp, fieldX, fieldY, regOfNibble, fieldN, toNat_extractLsb']; have := w.isLt; omega

/-! ### The fixed bits of a word are its fields -/

/-- The mask F000 keeps `op`. -/
theorem and_F000 (w : Word) : w &&& 0xF000 = (fieldOp w).zeroExtend 16 <<< 12 := by
  apply BitVec.eq_of_getLsbD_eq
  intro k hk
  simp only [BitVec.getLsbD_and, BitVec.getLsbD_shiftLeft, BitVec.getLsbD_setWidth, fieldOp, BitVec.getLsbD_extractLsb']
  interval_cases k <;> simp

/-- The mask F00F keeps `op` and `n`. -/
theorem and_F00F (w : Word) : w &&& 0xF00F = (fieldOp w).zeroExtend 16 <<< 12 ||| (fieldN w).zeroExtend 16 := by
  apply BitVec.eq_of_getLsbD_eq
  intro k hk
  simp only [BitVec.getLsbD_and, BitVec.getLsbD_or, BitVec.getLsbD_shiftLeft, BitVec.getLsbD_setWidth, fieldOp, fieldN,
    BitVec.getLsbD_extractLsb']
  interval_cases k <;> simp

/-- The mask F0FF keeps `op` and `kk`. -/
theorem and_F0FF (w : Word) : w &&& 0xF0FF = (fieldOp w).zeroExtend 16 <<< 12 ||| (fieldKk w).zeroExtend 16 := by
  apply BitVec.eq_of_getLsbD_eq
  intro k hk
  simp only [BitVec.getLsbD_and, BitVec.getLsbD_or, BitVec.getLsbD_shiftLeft, BitVec.getLsbD_setWidth, fieldOp, fieldKk,
    BitVec.getLsbD_extractLsb']
  interval_cases k <;> simp

end Sys2Proof
end

