-- ==== Sys2Proof/Laws/State.lean ====
section
/-! SUPPORT. One lemma per field per named update of the state: what the update writes and what it leaves. -/

namespace Sys2Proof.Machine

/-! ### setV -/

@[simp] theorem State.setV_v (s : State) (x : Reg) (b : Byte) : (s.setV x b).v = s.v.set x b := rfl
@[simp] theorem State.setV_i (s : State) (x : Reg) (b : Byte) : (s.setV x b).i = s.i := rfl
@[simp] theorem State.setV_pc (s : State) (x : Reg) (b : Byte) : (s.setV x b).pc = s.pc := rfl
@[simp] theorem State.setV_stack (s : State) (x : Reg) (b : Byte) : (s.setV x b).stack = s.stack := rfl
@[simp] theorem State.setV_sp (s : State) (x : Reg) (b : Byte) : (s.setV x b).sp = s.sp := rfl
@[simp] theorem State.setV_dt (s : State) (x : Reg) (b : Byte) : (s.setV x b).dt = s.dt := rfl
@[simp] theorem State.setV_st (s : State) (x : Reg) (b : Byte) : (s.setV x b).st = s.st := rfl
@[simp] theorem State.setV_fb (s : State) (x : Reg) (b : Byte) : (s.setV x b).fb = s.fb := rfl
@[simp] theorem State.setV_mem (s : State) (x : Reg) (b : Byte) : (s.setV x b).mem = s.mem := rfl
@[simp] theorem State.setV_runState (s : State) (x : Reg) (b : Byte) : (s.setV x b).runState = s.runState := rfl
@[simp] theorem State.setV_faultCode (s : State) (x : Reg) (b : Byte) : (s.setV x b).faultCode = s.faultCode := rfl
@[simp] theorem State.setV_faultInfo (s : State) (x : Reg) (b : Byte) : (s.setV x b).faultInfo = s.faultInfo := rfl
@[simp] theorem State.setV_redraw (s : State) (x : Reg) (b : Byte) : (s.setV x b).redraw = s.redraw := rfl
@[simp] theorem State.setV_config (s : State) (x : Reg) (b : Byte) : (s.setV x b).config = s.config := rfl
@[simp] theorem State.setV_pins (s : State) (x : Reg) (b : Byte) : (s.setV x b).pins = s.pins := rfl
@[simp] theorem State.setV_script (s : State) (x : Reg) (b : Byte) : (s.setV x b).script = s.script := rfl
@[simp] theorem State.setV_cycle (s : State) (x : Reg) (b : Byte) : (s.setV x b).cycle = s.cycle := rfl

/-! ### setPc -/

@[simp] theorem State.setPc_v (s : State) (a : Word) : (s.setPc a).v = s.v := rfl
@[simp] theorem State.setPc_i (s : State) (a : Word) : (s.setPc a).i = s.i := rfl
@[simp] theorem State.setPc_pc (s : State) (a : Word) : (s.setPc a).pc = a := rfl
@[simp] theorem State.setPc_stack (s : State) (a : Word) : (s.setPc a).stack = s.stack := rfl
@[simp] theorem State.setPc_sp (s : State) (a : Word) : (s.setPc a).sp = s.sp := rfl
@[simp] theorem State.setPc_dt (s : State) (a : Word) : (s.setPc a).dt = s.dt := rfl
@[simp] theorem State.setPc_st (s : State) (a : Word) : (s.setPc a).st = s.st := rfl
@[simp] theorem State.setPc_fb (s : State) (a : Word) : (s.setPc a).fb = s.fb := rfl
@[simp] theorem State.setPc_mem (s : State) (a : Word) : (s.setPc a).mem = s.mem := rfl
@[simp] theorem State.setPc_runState (s : State) (a : Word) : (s.setPc a).runState = s.runState := rfl
@[simp] theorem State.setPc_faultCode (s : State) (a : Word) : (s.setPc a).faultCode = s.faultCode := rfl
@[simp] theorem State.setPc_faultInfo (s : State) (a : Word) : (s.setPc a).faultInfo = s.faultInfo := rfl
@[simp] theorem State.setPc_redraw (s : State) (a : Word) : (s.setPc a).redraw = s.redraw := rfl
@[simp] theorem State.setPc_config (s : State) (a : Word) : (s.setPc a).config = s.config := rfl
@[simp] theorem State.setPc_pins (s : State) (a : Word) : (s.setPc a).pins = s.pins := rfl
@[simp] theorem State.setPc_script (s : State) (a : Word) : (s.setPc a).script = s.script := rfl
@[simp] theorem State.setPc_cycle (s : State) (a : Word) : (s.setPc a).cycle = s.cycle := rfl

/-! ### setI -/

@[simp] theorem State.setI_v (s : State) (a : Word) : (s.setI a).v = s.v := rfl
@[simp] theorem State.setI_i (s : State) (a : Word) : (s.setI a).i = a := rfl
@[simp] theorem State.setI_pc (s : State) (a : Word) : (s.setI a).pc = s.pc := rfl
@[simp] theorem State.setI_stack (s : State) (a : Word) : (s.setI a).stack = s.stack := rfl
@[simp] theorem State.setI_sp (s : State) (a : Word) : (s.setI a).sp = s.sp := rfl
@[simp] theorem State.setI_dt (s : State) (a : Word) : (s.setI a).dt = s.dt := rfl
@[simp] theorem State.setI_st (s : State) (a : Word) : (s.setI a).st = s.st := rfl
@[simp] theorem State.setI_fb (s : State) (a : Word) : (s.setI a).fb = s.fb := rfl
@[simp] theorem State.setI_mem (s : State) (a : Word) : (s.setI a).mem = s.mem := rfl
@[simp] theorem State.setI_runState (s : State) (a : Word) : (s.setI a).runState = s.runState := rfl
@[simp] theorem State.setI_faultCode (s : State) (a : Word) : (s.setI a).faultCode = s.faultCode := rfl
@[simp] theorem State.setI_faultInfo (s : State) (a : Word) : (s.setI a).faultInfo = s.faultInfo := rfl
@[simp] theorem State.setI_redraw (s : State) (a : Word) : (s.setI a).redraw = s.redraw := rfl
@[simp] theorem State.setI_config (s : State) (a : Word) : (s.setI a).config = s.config := rfl
@[simp] theorem State.setI_pins (s : State) (a : Word) : (s.setI a).pins = s.pins := rfl
@[simp] theorem State.setI_script (s : State) (a : Word) : (s.setI a).script = s.script := rfl
@[simp] theorem State.setI_cycle (s : State) (a : Word) : (s.setI a).cycle = s.cycle := rfl

/-! ### setDt -/

@[simp] theorem State.setDt_v (s : State) (b : Byte) : (s.setDt b).v = s.v := rfl
@[simp] theorem State.setDt_i (s : State) (b : Byte) : (s.setDt b).i = s.i := rfl
@[simp] theorem State.setDt_pc (s : State) (b : Byte) : (s.setDt b).pc = s.pc := rfl
@[simp] theorem State.setDt_stack (s : State) (b : Byte) : (s.setDt b).stack = s.stack := rfl
@[simp] theorem State.setDt_sp (s : State) (b : Byte) : (s.setDt b).sp = s.sp := rfl
@[simp] theorem State.setDt_dt (s : State) (b : Byte) : (s.setDt b).dt = b := rfl
@[simp] theorem State.setDt_st (s : State) (b : Byte) : (s.setDt b).st = s.st := rfl
@[simp] theorem State.setDt_fb (s : State) (b : Byte) : (s.setDt b).fb = s.fb := rfl
@[simp] theorem State.setDt_mem (s : State) (b : Byte) : (s.setDt b).mem = s.mem := rfl
@[simp] theorem State.setDt_runState (s : State) (b : Byte) : (s.setDt b).runState = s.runState := rfl
@[simp] theorem State.setDt_faultCode (s : State) (b : Byte) : (s.setDt b).faultCode = s.faultCode := rfl
@[simp] theorem State.setDt_faultInfo (s : State) (b : Byte) : (s.setDt b).faultInfo = s.faultInfo := rfl
@[simp] theorem State.setDt_redraw (s : State) (b : Byte) : (s.setDt b).redraw = s.redraw := rfl
@[simp] theorem State.setDt_config (s : State) (b : Byte) : (s.setDt b).config = s.config := rfl
@[simp] theorem State.setDt_pins (s : State) (b : Byte) : (s.setDt b).pins = s.pins := rfl
@[simp] theorem State.setDt_script (s : State) (b : Byte) : (s.setDt b).script = s.script := rfl
@[simp] theorem State.setDt_cycle (s : State) (b : Byte) : (s.setDt b).cycle = s.cycle := rfl

/-! ### setSt -/

@[simp] theorem State.setSt_v (s : State) (b : Byte) : (s.setSt b).v = s.v := rfl
@[simp] theorem State.setSt_i (s : State) (b : Byte) : (s.setSt b).i = s.i := rfl
@[simp] theorem State.setSt_pc (s : State) (b : Byte) : (s.setSt b).pc = s.pc := rfl
@[simp] theorem State.setSt_stack (s : State) (b : Byte) : (s.setSt b).stack = s.stack := rfl
@[simp] theorem State.setSt_sp (s : State) (b : Byte) : (s.setSt b).sp = s.sp := rfl
@[simp] theorem State.setSt_dt (s : State) (b : Byte) : (s.setSt b).dt = s.dt := rfl
@[simp] theorem State.setSt_st (s : State) (b : Byte) : (s.setSt b).st = b := rfl
@[simp] theorem State.setSt_fb (s : State) (b : Byte) : (s.setSt b).fb = s.fb := rfl
@[simp] theorem State.setSt_mem (s : State) (b : Byte) : (s.setSt b).mem = s.mem := rfl
@[simp] theorem State.setSt_runState (s : State) (b : Byte) : (s.setSt b).runState = s.runState := rfl
@[simp] theorem State.setSt_faultCode (s : State) (b : Byte) : (s.setSt b).faultCode = s.faultCode := rfl
@[simp] theorem State.setSt_faultInfo (s : State) (b : Byte) : (s.setSt b).faultInfo = s.faultInfo := rfl
@[simp] theorem State.setSt_redraw (s : State) (b : Byte) : (s.setSt b).redraw = s.redraw := rfl
@[simp] theorem State.setSt_config (s : State) (b : Byte) : (s.setSt b).config = s.config := rfl
@[simp] theorem State.setSt_pins (s : State) (b : Byte) : (s.setSt b).pins = s.pins := rfl
@[simp] theorem State.setSt_script (s : State) (b : Byte) : (s.setSt b).script = s.script := rfl
@[simp] theorem State.setSt_cycle (s : State) (b : Byte) : (s.setSt b).cycle = s.cycle := rfl

/-! ### raise -/

@[simp] theorem State.raise_v (s : State) (f : FaultKind) : (s.raise f).v = s.v := rfl
@[simp] theorem State.raise_i (s : State) (f : FaultKind) : (s.raise f).i = s.i := rfl
@[simp] theorem State.raise_pc (s : State) (f : FaultKind) : (s.raise f).pc = s.pc := rfl
@[simp] theorem State.raise_stack (s : State) (f : FaultKind) : (s.raise f).stack = s.stack := rfl
@[simp] theorem State.raise_sp (s : State) (f : FaultKind) : (s.raise f).sp = s.sp := rfl
@[simp] theorem State.raise_dt (s : State) (f : FaultKind) : (s.raise f).dt = s.dt := rfl
@[simp] theorem State.raise_st (s : State) (f : FaultKind) : (s.raise f).st = s.st := rfl
@[simp] theorem State.raise_fb (s : State) (f : FaultKind) : (s.raise f).fb = s.fb := rfl
@[simp] theorem State.raise_mem (s : State) (f : FaultKind) : (s.raise f).mem = s.mem := rfl
@[simp] theorem State.raise_runState (s : State) (f : FaultKind) : (s.raise f).runState = .halt := rfl
@[simp] theorem State.raise_faultCode (s : State) (f : FaultKind) : (s.raise f).faultCode = f.code := rfl
@[simp] theorem State.raise_faultInfo (s : State) (f : FaultKind) : (s.raise f).faultInfo = f.info := rfl
@[simp] theorem State.raise_redraw (s : State) (f : FaultKind) : (s.raise f).redraw = s.redraw := rfl
@[simp] theorem State.raise_config (s : State) (f : FaultKind) : (s.raise f).config = s.config := rfl
@[simp] theorem State.raise_pins (s : State) (f : FaultKind) : (s.raise f).pins = s.pins := rfl
@[simp] theorem State.raise_script (s : State) (f : FaultKind) : (s.raise f).script = s.script := rfl
@[simp] theorem State.raise_cycle (s : State) (f : FaultKind) : (s.raise f).cycle = s.cycle := rfl

/-! ### takeReset -/

@[simp] theorem State.takeReset_v (s : State) : (s.takeReset).v = State.reset.v := rfl
@[simp] theorem State.takeReset_i (s : State) : (s.takeReset).i = State.reset.i := rfl
@[simp] theorem State.takeReset_pc (s : State) : (s.takeReset).pc = State.reset.pc := rfl
@[simp] theorem State.takeReset_stack (s : State) : (s.takeReset).stack = State.reset.stack := rfl
@[simp] theorem State.takeReset_sp (s : State) : (s.takeReset).sp = State.reset.sp := rfl
@[simp] theorem State.takeReset_dt (s : State) : (s.takeReset).dt = State.reset.dt := rfl
@[simp] theorem State.takeReset_st (s : State) : (s.takeReset).st = State.reset.st := rfl
@[simp] theorem State.takeReset_fb (s : State) : (s.takeReset).fb = State.reset.fb := rfl
@[simp] theorem State.takeReset_mem (s : State) : (s.takeReset).mem = State.reset.mem := rfl
@[simp] theorem State.takeReset_runState (s : State) : (s.takeReset).runState = State.reset.runState := rfl
@[simp] theorem State.takeReset_faultCode (s : State) : (s.takeReset).faultCode = State.reset.faultCode := rfl
@[simp] theorem State.takeReset_faultInfo (s : State) : (s.takeReset).faultInfo = State.reset.faultInfo := rfl
@[simp] theorem State.takeReset_redraw (s : State) : (s.takeReset).redraw = State.reset.redraw := rfl
@[simp] theorem State.takeReset_config (s : State) : (s.takeReset).config = s.config := rfl
@[simp] theorem State.takeReset_pins (s : State) : (s.takeReset).pins = s.pins := rfl
@[simp] theorem State.takeReset_script (s : State) : (s.takeReset).script = s.script := rfl
@[simp] theorem State.takeReset_cycle (s : State) : (s.takeReset).cycle = s.cycle := rfl

/-! ### sampleInputs -/

@[simp] theorem State.sampleInputs_v (s : State) : (s.sampleInputs).v = s.v := rfl
@[simp] theorem State.sampleInputs_i (s : State) : (s.sampleInputs).i = s.i := rfl
@[simp] theorem State.sampleInputs_pc (s : State) : (s.sampleInputs).pc = s.pc := rfl
@[simp] theorem State.sampleInputs_stack (s : State) : (s.sampleInputs).stack = s.stack := rfl
@[simp] theorem State.sampleInputs_sp (s : State) : (s.sampleInputs).sp = s.sp := rfl
@[simp] theorem State.sampleInputs_dt (s : State) : (s.sampleInputs).dt = s.dt := rfl
@[simp] theorem State.sampleInputs_st (s : State) : (s.sampleInputs).st = s.st := rfl
@[simp] theorem State.sampleInputs_fb (s : State) : (s.sampleInputs).fb = s.fb := rfl
@[simp] theorem State.sampleInputs_mem (s : State) : (s.sampleInputs).mem = s.mem := rfl
@[simp] theorem State.sampleInputs_runState (s : State) : (s.sampleInputs).runState = s.runState := rfl
@[simp] theorem State.sampleInputs_faultCode (s : State) : (s.sampleInputs).faultCode = s.faultCode := rfl
@[simp] theorem State.sampleInputs_faultInfo (s : State) : (s.sampleInputs).faultInfo = s.faultInfo := rfl
@[simp] theorem State.sampleInputs_redraw (s : State) : (s.sampleInputs).redraw = false := rfl
@[simp] theorem State.sampleInputs_config (s : State) : (s.sampleInputs).config = s.config := rfl
@[simp] theorem State.sampleInputs_pins (s : State) : (s.sampleInputs).pins = s.nextPins := rfl
@[simp] theorem State.sampleInputs_script (s : State) : (s.sampleInputs).script = s.script.tail := rfl
@[simp] theorem State.sampleInputs_cycle (s : State) : (s.sampleInputs).cycle = s.cycle + 1 := rfl

/-! ### skipIf -/

@[simp] theorem State.skipIf_v (s : State) (c : Bool) : (s.skipIf c).v = s.v := by cases c <;> rfl
@[simp] theorem State.skipIf_i (s : State) (c : Bool) : (s.skipIf c).i = s.i := by cases c <;> rfl
@[simp] theorem State.skipIf_pc (s : State) (c : Bool) : (s.skipIf c).pc = if c then s.pc + 2 else s.pc := by cases c <;> rfl
@[simp] theorem State.skipIf_stack (s : State) (c : Bool) : (s.skipIf c).stack = s.stack := by cases c <;> rfl
@[simp] theorem State.skipIf_sp (s : State) (c : Bool) : (s.skipIf c).sp = s.sp := by cases c <;> rfl
@[simp] theorem State.skipIf_dt (s : State) (c : Bool) : (s.skipIf c).dt = s.dt := by cases c <;> rfl
@[simp] theorem State.skipIf_st (s : State) (c : Bool) : (s.skipIf c).st = s.st := by cases c <;> rfl
@[simp] theorem State.skipIf_fb (s : State) (c : Bool) : (s.skipIf c).fb = s.fb := by cases c <;> rfl
@[simp] theorem State.skipIf_mem (s : State) (c : Bool) : (s.skipIf c).mem = s.mem := by cases c <;> rfl
@[simp] theorem State.skipIf_runState (s : State) (c : Bool) : (s.skipIf c).runState = s.runState := by cases c <;> rfl
@[simp] theorem State.skipIf_faultCode (s : State) (c : Bool) : (s.skipIf c).faultCode = s.faultCode := by cases c <;> rfl
@[simp] theorem State.skipIf_faultInfo (s : State) (c : Bool) : (s.skipIf c).faultInfo = s.faultInfo := by cases c <;> rfl
@[simp] theorem State.skipIf_redraw (s : State) (c : Bool) : (s.skipIf c).redraw = s.redraw := by cases c <;> rfl
@[simp] theorem State.skipIf_config (s : State) (c : Bool) : (s.skipIf c).config = s.config := by cases c <;> rfl
@[simp] theorem State.skipIf_pins (s : State) (c : Bool) : (s.skipIf c).pins = s.pins := by cases c <;> rfl
@[simp] theorem State.skipIf_script (s : State) (c : Bool) : (s.skipIf c).script = s.script := by cases c <;> rfl
@[simp] theorem State.skipIf_cycle (s : State) (c : Bool) : (s.skipIf c).cycle = s.cycle := by cases c <;> rfl

/-! ### tick -/

@[simp] theorem State.tick_v (s : State) : (s.tick).v = s.v := by unfold State.tick; split <;> simp_all
@[simp] theorem State.tick_i (s : State) : (s.tick).i = s.i := by unfold State.tick; split <;> simp_all
@[simp] theorem State.tick_pc (s : State) : (s.tick).pc = s.pc := by unfold State.tick; split <;> simp_all
@[simp] theorem State.tick_stack (s : State) : (s.tick).stack = s.stack := by unfold State.tick; split <;> simp_all
@[simp] theorem State.tick_sp (s : State) : (s.tick).sp = s.sp := by unfold State.tick; split <;> simp_all
@[simp] theorem State.tick_dt (s : State) : (s.tick).dt = s.dt - (if s.dt = 0 then 0 else 1) := by unfold State.tick; split <;> simp_all
@[simp] theorem State.tick_st (s : State) : (s.tick).st = s.st := by unfold State.tick; split <;> simp_all
@[simp] theorem State.tick_fb (s : State) : (s.tick).fb = s.fb := by unfold State.tick; split <;> simp_all
@[simp] theorem State.tick_mem (s : State) : (s.tick).mem = s.mem := by unfold State.tick; split <;> simp_all
@[simp] theorem State.tick_runState (s : State) : (s.tick).runState = s.runState := by unfold State.tick; split <;> simp_all
@[simp] theorem State.tick_faultCode (s : State) : (s.tick).faultCode = s.faultCode := by unfold State.tick; split <;> simp_all
@[simp] theorem State.tick_faultInfo (s : State) : (s.tick).faultInfo = s.faultInfo := by unfold State.tick; split <;> simp_all
@[simp] theorem State.tick_redraw (s : State) : (s.tick).redraw = s.redraw := by unfold State.tick; split <;> simp_all
@[simp] theorem State.tick_config (s : State) : (s.tick).config = s.config := by unfold State.tick; split <;> simp_all
@[simp] theorem State.tick_pins (s : State) : (s.tick).pins = s.pins := by unfold State.tick; split <;> simp_all
@[simp] theorem State.tick_script (s : State) : (s.tick).script = s.script := by unfold State.tick; split <;> simp_all
@[simp] theorem State.tick_cycle (s : State) : (s.tick).cycle = s.cycle := by unfold State.tick; split <;> simp_all

/-! ### Registers -/

@[simp] theorem State.getV_setV (s : State) (x r : Reg) (b : Byte) :
    (s.setV x b).getV r = if r = x then b else s.getV r := by
  unfold State.getV State.setV
  by_cases h : r = x
  · subst h; simp
  · have : x.val ≠ r.val := fun e => h (Fin.ext e.symm)
    simp [h, this]

/-- An update that leaves the register file leaves every register. -/
theorem State.getV_of_v_eq (s t : State) (h : t.v = s.v) (r : Reg) : t.getV r = s.getV r := by
  unfold State.getV; rw [h]

@[simp] theorem State.getV_setPc (s : State) (a : Word) (r : Reg) : (s.setPc a).getV r = s.getV r :=
  State.getV_of_v_eq _ _ (by simp) r
@[simp] theorem State.getV_setI (s : State) (a : Word) (r : Reg) : (s.setI a).getV r = s.getV r :=
  State.getV_of_v_eq _ _ (by simp) r
@[simp] theorem State.getV_setDt (s : State) (b : Byte) (r : Reg) : (s.setDt b).getV r = s.getV r :=
  State.getV_of_v_eq _ _ (by simp) r
@[simp] theorem State.getV_setSt (s : State) (b : Byte) (r : Reg) : (s.setSt b).getV r = s.getV r :=
  State.getV_of_v_eq _ _ (by simp) r
@[simp] theorem State.getV_raise (s : State) (f : FaultKind) (r : Reg) : (s.raise f).getV r = s.getV r :=
  State.getV_of_v_eq _ _ (by simp) r
@[simp] theorem State.getV_sampleInputs (s : State) (r : Reg) : (s.sampleInputs).getV r = s.getV r :=
  State.getV_of_v_eq _ _ (by simp) r
@[simp] theorem State.getV_skipIf (s : State) (c : Bool) (r : Reg) : (s.skipIf c).getV r = s.getV r :=
  State.getV_of_v_eq _ _ (by simp) r
@[simp] theorem State.getV_tick (s : State) (r : Reg) : (s.tick).getV r = s.getV r :=
  State.getV_of_v_eq _ _ (by simp) r

@[simp] theorem State.getV_reset (r : Reg) : State.reset.getV r = 0 := by
  unfold State.getV State.reset; simp

end Sys2Proof.Machine
end

