-- ==== Sys2Proof/Laws/Memory.lean ====
section
/-! SUPPORT. Reading after erasing, inserting and writing, and that every memory operation keeps the canonical form. -/

namespace Sys2Proof.Machine

/-! ### What a read gives -/

@[simp] theorem Memory.read_nil (a : Nat) : Memory.read [] a = resetByte a := rfl

theorem Memory.read_cons (c : Host.Cell) (m : Memory) (a : Nat) :
    Memory.read (c :: m) a = if c.1 = a then c.2 else Memory.read m a := rfl

/-- Erasing an address makes it read as at reset and leaves every other. -/
theorem Memory.read_erase (m : Memory) (a a' : Nat) :
    Memory.read (Memory.erase m a) a' = if a' = a then resetByte a else Memory.read m a' := by
  induction m with
  | nil => simp only [Memory.erase, List.filter_nil, read_nil]; split <;> simp_all
  | cons c m ih =>
    unfold Memory.erase at ih ⊢
    by_cases hc : c.1 = a
    · simp only [hc, bne_self_eq_false, Bool.false_eq_true, not_false_eq_true, List.filter_cons_of_neg, read_cons]
      rw [ih]; by_cases h : a' = a
      · simp [h]
      · simp [h, Ne.symm h]
    · have hk : (c.1 != a) = true := by simpa using hc
      simp only [List.filter_cons_of_pos (p := fun d : Host.Cell => d.1 != a) hk, read_cons]
      rw [ih]
      by_cases h : a' = a
      · subst h; simp [hc]
      · simp [h]

/-- Inserting a cell whose address is not listed makes that address read as the cell and leaves every other. -/
theorem Memory.read_insert (c : Host.Cell) (m : Memory) (a' : Nat) (hm : ∀ d ∈ m, d.1 ≠ c.1) :
    Memory.read (Memory.insert c m) a' = if a' = c.1 then c.2 else Memory.read m a' := by
  induction m with
  | nil => simp only [Memory.insert, read_cons, eq_comm]
  | cons d m ih =>
    have hd := hm d (by simp)
    have hm' : ∀ e ∈ m, e.1 ≠ c.1 := fun e he => hm e (by simp [he])
    unfold Memory.insert
    split
    · simp only [read_cons, eq_comm]
    · simp only [read_cons]
      rw [ih hm']
      by_cases h : d.1 = a'
      · have : a' ≠ c.1 := by rw [← h]; exact hd
        simp [h, this]
      · simp [h]

theorem Memory.ne_of_mem_erase (m : Memory) (a : Nat) (d : Host.Cell) (h : d ∈ Memory.erase m a) : d.1 ≠ a := by
  unfold Memory.erase at h
  simpa using (List.mem_filter.mp h).2

/-- A read after a write: the byte written at that address, and every other byte as before. It holds of every list, canonical or
not. -/
theorem Memory.read_write (m : Memory) (a : Nat) (b : Byte) (a' : Nat) :
    Memory.read (Memory.write m a b) a' = if a' = a then b else Memory.read m a' := by
  unfold Memory.write
  split
  · next h => rw [read_erase]; split <;> simp_all
  · rw [read_insert _ _ _ (fun d hd => ne_of_mem_erase m a d hd), read_erase]
    split <;> simp_all

@[simp] theorem Memory.read_write_same (m : Memory) (a : Nat) (b : Byte) : Memory.read (Memory.write m a b) a = b := by
  simp [read_write]

theorem Memory.read_write_other (m : Memory) (a a' : Nat) (b : Byte) (h : a' ≠ a) :
    Memory.read (Memory.write m a b) a' = Memory.read m a' := by
  simp [read_write, h]

/-! ### The canonical form -/

theorem Memory.wf_nil : Memory.wf [] := by simp [Memory.wf]

theorem Memory.wf_erase (m : Memory) (a : Nat) (h : Memory.wf m) : Memory.wf (Memory.erase m a) := by
  unfold Memory.erase
  refine ⟨h.1.sublist (List.Sublist.map _ List.filter_sublist), fun c hc => h.2 c (List.mem_filter.mp hc).1⟩

theorem Memory.mem_insert (c d : Host.Cell) (m : Memory) : d ∈ Memory.insert c m ↔ d = c ∨ d ∈ m := by
  induction m with
  | nil => simp [Memory.insert]
  | cons e m ih =>
    unfold Memory.insert
    split
    · simp
    · simp only [List.mem_cons, ih]; tauto

theorem Memory.wf_insert (c : Host.Cell) (m : Memory) (h : Memory.wf m) (hc : validAddr c.1 = true ∧ c.2 ≠ resetByte c.1)
    (hm : ∀ d ∈ m, d.1 ≠ c.1) : Memory.wf (Memory.insert c m) := by
  refine ⟨?_, fun d hd => ?_⟩
  · have hs := h.1
    clear h
    induction m with
    | nil => simp [Memory.insert]
    | cons e m ih =>
      unfold Memory.insert
      simp only [List.map_cons, List.pairwise_cons, List.mem_map, forall_exists_index, and_imp,
        forall_apply_eq_imp_iff₂] at hs
      split
      · next hlt =>
        simp only [List.map_cons, List.pairwise_cons, List.mem_cons, List.mem_map, forall_eq_or_imp,
          forall_exists_index, and_imp, forall_apply_eq_imp_iff₂]
        exact ⟨⟨hlt, fun d hd => lt_trans hlt (hs.1 d hd)⟩, hs.1, hs.2⟩
      · next hge =>
        have he := hm e (by simp)
        simp only [List.map_cons, List.pairwise_cons, List.mem_map, forall_exists_index, and_imp,
          forall_apply_eq_imp_iff₂, mem_insert]
        refine ⟨fun d hd => ?_, ih (fun d hd => hm d (by simp [hd])) hs.2⟩
        rcases hd with rfl | hd
        · omega
        · exact hs.1 d hd
  · rcases (mem_insert c d m).mp hd with rfl | hd
    · exact hc
    · exact h.2 d hd

/-- A write at a valid address keeps the canonical form. -/
theorem Memory.wf_write (m : Memory) (a : Nat) (b : Byte) (h : Memory.wf m) (ha : validAddr a = true) :
    Memory.wf (Memory.write m a b) := by
  unfold Memory.write
  split
  · exact wf_erase m a h
  · next hb => exact wf_insert _ _ (wf_erase m a h) ⟨ha, hb⟩ (fun d hd => ne_of_mem_erase m a d hd)

theorem State.reset_mem_wf : Memory.wf State.reset.mem := Memory.wf_nil

/-- Equal reads at every address make equal canonical memories: the form is canonical. -/
theorem Memory.eq_of_read_eq (m m' : Memory) (h : Memory.wf m) (h' : Memory.wf m')
    (hr : ∀ a, Memory.read m a = Memory.read m' a) : m = m' := by
  have key : ∀ (l : Memory), Memory.wf l → ∀ c : Host.Cell, c ∈ l ↔ (Memory.read l c.1 = c.2 ∧ c.2 ≠ resetByte c.1) := by
    intro l hl c
    induction l with
    | nil => simp only [List.not_mem_nil, read_nil, false_iff, not_and, not_not]; exact fun e => e.symm
    | cons d l ih =>
      have hs := hl.1
      simp only [List.map_cons, List.pairwise_cons, List.mem_map, forall_exists_index, and_imp,
        forall_apply_eq_imp_iff₂] at hs
      have hl' : Memory.wf l := ⟨hs.2, fun e he => hl.2 e (by simp [he])⟩
      rw [read_cons, List.mem_cons]
      by_cases e : d.1 = c.1
      · simp only [e, if_true]
        constructor
        · rintro (rfl | hc)
          · exact ⟨rfl, (hl.2 c (by simp)).2⟩
          · have := hs.1 c hc; omega
        · rintro ⟨h1, -⟩
          exact Or.inl (Prod.ext e.symm h1.symm)
      · simp only [e, if_false]
        rw [← ih hl']
        constructor
        · rintro (rfl | hc)
          · exact absurd rfl e
          · exact hc
        · exact Or.inr
  have hmem : ∀ c : Host.Cell, c ∈ m ↔ c ∈ m' := fun c => by rw [key m h c, key m' h' c, hr]
  have hs : ∀ l : Memory, Memory.wf l → l.Pairwise (fun c d => c.1 < d.1) := fun l hl => List.pairwise_map.mp hl.1
  have nd : ∀ l : Memory, Memory.wf l → l.Nodup := fun l hl =>
    (hs l hl).imp (fun {c d} hlt => by rintro rfl; exact absurd hlt (lt_irrefl _))
  refine List.Perm.eq_of_pairwise (le := fun c d : Host.Cell => c.1 < d.1) ?_ (hs m h) (hs m' h') ((List.perm_ext_iff_of_nodup (nd m h) (nd m' h')).mpr hmem)
  intro c d _ _ h1 h2
  omega

end Sys2Proof.Machine
end

