-- ==== Sys2Proof/Laws/Ops.lean ====
section
/-! SUPPORT. For each shared operation of Machine/Ops.lean, what it can do, said once: memory accesses, block stores and loads,
the sprite read, the call stack, and the loader edge. -/

namespace Sys2Proof.Machine

/-! ### Byte and word accesses -/

theorem validAddr_iff (a : Nat) : validAddr a = true ↔ a ≤ 0xFFF := by simp [validAddr]

theorem State.memRead_valid (s : State) (a : Nat) (h : a ≤ 0xFFF) : s.memRead a = .ok (Memory.read s.mem a) := by
  simp [State.memRead, validAddr, h]

theorem State.memRead_invalid (s : State) (a : Nat) (h : 0xFFF < a) :
    s.memRead a = .error (.segmentationFault (BitVec.ofNat 16 a)) := by
  simp [State.memRead, validAddr, h]

theorem State.memWrite_valid (s : State) (a : Nat) (b : Byte) (h : a ≤ 0xFFF) :
    s.memWrite a b = .ok { s with mem := Memory.write s.mem a b } := by
  simp [State.memWrite, validAddr, h]

theorem State.memWrite_invalid (s : State) (a : Nat) (b : Byte) (h : 0xFFF < a) :
    s.memWrite a b = .error (.segmentationFault (BitVec.ofNat 16 a)) := by
  simp [State.memWrite, validAddr, h]

/-- What a word read answers: the two bytes, or the fault of the first one out of range (R44). -/
theorem State.memReadWord_eq (s : State) (a : Nat) :
    s.memReadWord a =
      if a + 1 ≤ 0xFFF then .ok (wordOfBytes (Memory.read s.mem a) (Memory.read s.mem (a + 1)))
      else if a = 0xFFF then .error (.segmentationFault 0x1000)
      else .error (.segmentationFault (BitVec.ofNat 16 a)) := by
  unfold State.memReadWord
  by_cases h : a + 1 ≤ 0xFFF
  · rw [memRead_valid s a (by omega), memRead_valid s (a + 1) h]; simp [h]
  · by_cases h' : a = 0xFFF
    · subst h'; rw [memRead_valid s _ (by omega), memRead_invalid s _ (by omega)]; simp
    · rw [memRead_invalid s a (by omega)]; simp [h, h']

/-! ### Block stores -/


/-- A block store touches memory, and the fault latch where the block does not fit. -/
theorem State.storeBytes_shape (bs : List Byte) : ∀ (s : State) (a : Nat),
    ∃ m : Memory, (Memory.wf s.mem → Memory.wf m) ∧
      (∀ a', Memory.read m a' =
        if a ≤ a' ∧ a' < a + bs.length ∧ a' ≤ 0xFFF then bs.getD (a' - a) 0 else Memory.read s.mem a') ∧
      s.storeBytes a bs =
        if bs.length = 0 ∨ a + bs.length ≤ 0x1000 then { s with mem := m }
        else ({ s with mem := m } : State).raise (.segmentationFault (BitVec.ofNat 16 (max a 0x1000))) := by
  induction bs with
  | nil => intro s a; exact ⟨s.mem, id, by simp; omega, by simp [State.storeBytes]⟩
  | cons b bs ih =>
    intro s a
    unfold State.storeBytes
    by_cases ha : a ≤ 0xFFF
    · rw [memWrite_valid s a b ha]
      obtain ⟨m, hwf, hr, he⟩ := ih { s with mem := Memory.write s.mem a b } (a + 1)
      refine ⟨m, fun h => hwf (Memory.wf_write _ _ _ h ((validAddr_iff a).mpr ha)), fun a' => ?_, ?_⟩
      · rw [hr a']
        simp only [List.length_cons]
        by_cases h1 : a' = a
        · subst h1
          have : ¬ (a' + 1 ≤ a' ∧ a' < a' + 1 + bs.length ∧ a' ≤ 0xFFF) := by omega
          rw [if_neg this, if_pos ⟨le_refl _, by omega, ha⟩]
          simp
        · by_cases h2 : a + 1 ≤ a' ∧ a' < a + 1 + bs.length ∧ a' ≤ 0xFFF
          · rw [if_pos h2, if_pos ⟨by omega, by omega, h2.2.2⟩]
            have : a' - a = (a' - (a + 1)) + 1 := by omega
            rw [this, List.getD_cons_succ]
          · rw [if_neg h2, if_neg (by omega), Memory.read_write_other _ _ _ _ h1]
      · simp only [he, List.length_cons]
        by_cases h1 : a + (bs.length + 1) ≤ 0x1000
        · rw [if_pos (Or.inr (by omega)), if_pos (Or.inr h1)]
        · rw [if_neg (by omega), if_neg (by omega)]
          have : max (a + 1) 0x1000 = max a 0x1000 := by omega
          rw [this]
    · rw [memWrite_invalid s a b (by omega)]
      refine ⟨s.mem, id, fun a' => ?_, ?_⟩
      · rw [if_neg (by omega)]
      · simp only [List.length_cons]
        rw [if_neg (by omega), show max a 0x1000 = a by omega]

/-! ### Block loads -/

/-- A block load of registers `j`, `j + 1`, ... touches those registers whose byte is in range, and the fault latch where the block
does not fit. -/
theorem State.loadRegsFrom_shape (ks : List Reg) : ∀ (s : State) (base j : Nat),
    (∀ n (h : n < ks.length), (ks[n]).val = j + n) →
    ∃ v : Vector Byte 16,
      (∀ r, ({ s with v := v } : State).getV r =
        if r ∈ ks ∧ base + r.val ≤ 0xFFF then Memory.read s.mem (base + r.val) else s.getV r) ∧
      s.loadRegsFrom base ks =
        if ks.length = 0 ∨ base + j + ks.length ≤ 0x1000 then { s with v := v }
        else ({ s with v := v } : State).raise (.segmentationFault (BitVec.ofNat 16 (max (base + j) 0x1000))) := by
  induction ks with
  | nil => intro s base j _; exact ⟨s.v, by simp, by simp [State.loadRegsFrom]⟩
  | cons k ks ih =>
    intro s base j h
    have hk : k.val = j := h 0 (by simp)
    have hrest : ∀ n (hn : n < ks.length), (ks[n]).val = (j + 1) + n := fun n hn => by
      have := h (n + 1) (by simpa using hn)
      simp only [List.getElem_cons_succ] at this
      omega
    simp only [State.loadRegsFrom]
    by_cases hv : base + k.val ≤ 0xFFF
    · rw [memRead_valid s _ hv]
      obtain ⟨v, hr, he⟩ := ih (s.setV k (Memory.read s.mem (base + k.val))) base (j + 1) hrest
      refine ⟨v, fun r => ?_, ?_⟩
      · refine Eq.trans (hr r) ?_
        simp only [setV_mem, getV_setV, List.mem_cons]
        by_cases hrk : r = k
        · subst hrk; simp [hv]
        · simp [hrk]
      · simp only [he, List.length_cons]
        by_cases hf : base + j + (ks.length + 1) ≤ 0x1000
        · rw [if_pos (by omega), if_pos (Or.inr hf)]; rfl
        · rw [if_neg (by omega), if_neg (by omega), show max (base + (j + 1)) 0x1000 = max (base + j) 0x1000 by omega]; rfl
    · rw [memRead_invalid s _ (by omega)]
      refine ⟨s.v, fun r => ?_, ?_⟩
      · rw [if_neg]
        rintro ⟨hm, hb⟩
        obtain ⟨n, hn, rfl⟩ := List.getElem_of_mem hm
        have := h n hn
        omega
      · simp only [List.length_cons]
        rw [if_neg (by omega), show max (base + j) 0x1000 = base + k.val by omega]

/-! ### The sprite read -/

/-- Reading `n` bytes: all of them, or the fault of the first one out of range. -/
theorem State.readBytes_eq (s : State) (n : Nat) : ∀ a : Nat,
    s.readBytes a n =
      if n = 0 ∨ a + n ≤ 0x1000 then .ok ((List.range n).map (fun r => Memory.read s.mem (a + r)))
      else .error (.segmentationFault (BitVec.ofNat 16 (max a 0x1000))) := by
  induction n with
  | zero => intro a; simp [State.readBytes]
  | succ n ih =>
    intro a
    unfold State.readBytes
    by_cases ha : a ≤ 0xFFF
    · rw [memRead_valid s a ha]
      simp only [ih (a + 1)]
      by_cases h : a + (n + 1) ≤ 0x1000
      · rw [if_pos (by omega), if_pos (Or.inr h)]
        simp only [List.range_succ_eq_map, List.map_cons, List.map_map, Nat.add_zero, Except.ok.injEq, List.cons.injEq,
          true_and]
        refine List.map_congr_left fun r _ => ?_
        simp only [Function.comp, Nat.succ_eq_add_one]
        congr 1; omega
      · rw [if_neg (by omega), if_neg (by omega), show max (a + 1) 0x1000 = max a 0x1000 by omega]
    · rw [memRead_invalid s a (by omega)]
      rw [if_neg (by omega), show max a 0x1000 = a by omega]

/-! ### The call stack -/

theorem State.push_room (s : State) (a : Word) (h : s.sp.val < 16) :
    s.push a = .ok { s with stack := s.stack.set s.sp.val a h, sp := ⟨s.sp.val + 1, by omega⟩ } := by
  simp [State.push, h]

theorem State.push_full (s : State) (a : Word) (h : s.sp.val = 16) : s.push a = .error .stackOverflow := by
  simp [State.push, h]

theorem State.pop_entry (s : State) (h : s.sp.val ≠ 0) :
    s.pop = .ok (s.stack[s.sp.val - 1]'(by omega), { s with sp := ⟨s.sp.val - 1, by omega⟩ }) := by
  simp only [State.pop, dif_neg h]

theorem State.pop_empty (s : State) (h : s.sp.val = 0) : s.pop = .error .stackUnderflow := by
  simp [State.pop, h]

/-! ### The loader edge -/

/-- A loader edge writes memory, or halts the machine by a SegmentationFault, and then honours `start` if still in LOAD. -/
theorem State.loadEdge_shape (s : State) :
    ∃ (m : Memory) (s1 : State), (Memory.wf s.mem → Memory.wf m) ∧
      (s1 = { s with mem := m } ∨
        (0xFFF < s.pins.ldAddr.toNat ∧ s1 = ({ s with mem := m } : State).raise (.segmentationFault s.pins.ldAddr))) ∧
      s.loadEdge = if s.pins.start = true ∧ s1.runState = .load then { s1 with runState := .run } else s1 := by
  by_cases hw : s.pins.ldWe = true
  · obtain ⟨m, hwf, -, he⟩ := State.storeBytes_shape [s.pins.ldData] s s.pins.ldAddr.toNat
    refine ⟨m, s.storeBytes s.pins.ldAddr.toNat [s.pins.ldData], hwf, ?_, ?_⟩
    · by_cases h : s.pins.ldAddr.toNat ≤ 0xFFF
      · left; rw [he, if_pos (by simp; omega)]
      · right
        refine ⟨by omega, ?_⟩
        rw [he, if_neg (by simp; omega), show max s.pins.ldAddr.toNat 0x1000 = s.pins.ldAddr.toNat by omega]
        simp
    · simp [State.loadEdge, hw]
  · exact ⟨s.mem, s, id, Or.inl rfl, by simp [State.loadEdge, hw]⟩

end Sys2Proof.Machine
end

