-- ==== Sys2Proof/Laws/Framebuffer.lean ====
section
/-! SUPPORT. The pixels and the collision report after a toggle, a sprite bit, a sprite row and a whole sprite. -/

namespace Sys2Proof.Machine

theorem Framebuffer.get_toggle (fb : Framebuffer) (px x : Fin 64) (py y : Fin 32) :
    Framebuffer.get (Framebuffer.toggle fb px py) x y =
      if px = x ∧ py = y then !Framebuffer.get fb x y else Framebuffer.get fb x y := by
  unfold Framebuffer.get Framebuffer.toggle
  by_cases hy : py = y
  · subst hy
    by_cases hx : px = x
    · subst hx; simp
    · have : px.val ≠ x.val := fun e => hx (Fin.ext e)
      simp [hx, this]
  · have : py.val ≠ y.val := fun e => hy (Fin.ext e)
    simp [hy, this]

@[simp] theorem Framebuffer.get_blank (x : Fin 64) (y : Fin 32) : Framebuffer.get Framebuffer.blank x y = false := by
  simp [Framebuffer.get, Framebuffer.blank]

/-- Two framebuffers with the same pixels are the same. -/
theorem Framebuffer.ext_get (fb fb' : Framebuffer) (h : ∀ x y, Framebuffer.get fb x y = Framebuffer.get fb' x y) : fb = fb' := by
  refine Vector.ext fun y hy => Vector.ext fun x hx => ?_
  exact h ⟨x, hx⟩ ⟨y, hy⟩

theorem plotBit_get (px py : Nat) (p : Plot) (x : Fin 64) (y : Fin 32) :
    Framebuffer.get (plotBit px py p).1 x y =
      (Framebuffer.get p.1 x y ^^ decide (px = x.val ∧ py = y.val)) := by
  unfold plotBit
  split
  · next hx =>
    split
    · next hy =>
      rw [Framebuffer.get_toggle]
      by_cases h : px = x.val ∧ py = y.val
      · rw [if_pos ⟨Fin.ext h.1, Fin.ext h.2⟩]; simp [h]
      · rw [if_neg (fun e => h ⟨congrArg Fin.val e.1, congrArg Fin.val e.2⟩)]; simp [h]
    · next hy =>
      have : ¬ (px = x.val ∧ py = y.val) := by omega
      simp [this]
  · next hx =>
    have : ¬ (px = x.val ∧ py = y.val) := by omega
    simp [this]

theorem plotBit_collides (px py : Nat) (p : Plot) :
    (plotBit px py p).2 = true ↔
      p.2 = true ∨ ∃ (x : Fin 64) (y : Fin 32), px = x.val ∧ py = y.val ∧ Framebuffer.get p.1 x y = true := by
  unfold plotBit
  split
  · next hx =>
    split
    · next hy =>
      simp only [Bool.or_eq_true]
      refine or_congr_right ⟨fun h => ⟨⟨px, hx⟩, ⟨py, hy⟩, rfl, rfl, h⟩, ?_⟩
      rintro ⟨x, y, rfl, rfl, h⟩; exact h
    · next hy =>
      refine ⟨Or.inl, ?_⟩
      rintro (h | ⟨x, y, rfl, rfl, h⟩)
      · exact h
      · exact absurd y.isLt hy
  · next hx =>
    refine ⟨Or.inl, ?_⟩
    rintro (h | ⟨x, y, rfl, rfl, h⟩)
    · exact h
    · exact absurd x.isLt hx

/-- A run of sprite bits of one row, each bit at most once: its pixels and its report. -/
theorem plotBits_spec (xb py : Nat) (row : Byte) (l : List Nat) : ∀ p : Plot, l.Nodup →
    (∀ (x : Fin 64) (y : Fin 32),
      Framebuffer.get (l.foldl (fun q b => if row.getLsbD (7 - b) then plotBit (xb + b) py q else q) p).1 x y =
        (Framebuffer.get p.1 x y ^^
          (decide (y.val = py ∧ xb ≤ x.val ∧ x.val - xb ∈ l) && row.getLsbD (7 - (x.val - xb))))) ∧
    ((l.foldl (fun q b => if row.getLsbD (7 - b) then plotBit (xb + b) py q else q) p).2 = true ↔
      p.2 = true ∨ ∃ (x : Fin 64) (y : Fin 32), y.val = py ∧ xb ≤ x.val ∧ x.val - xb ∈ l ∧
        row.getLsbD (7 - (x.val - xb)) = true ∧ Framebuffer.get p.1 x y = true) := by
  induction l with
  | nil => intro p _; simp
  | cons b l ih =>
    intro p hn
    obtain ⟨hb, hn⟩ := List.nodup_cons.mp hn
    simp only [List.foldl_cons]
    by_cases hr : row.getLsbD (7 - b) = true
    · rw [if_pos hr]
      obtain ⟨h1, h2⟩ := ih (plotBit (xb + b) py p) hn
      refine ⟨fun x y => ?_, ?_⟩
      · rw [h1, plotBit_get]
        by_cases hx : xb + b = x.val ∧ py = y.val
        · have e : x.val - xb = b := by omega
          have : decide (xb + b = x.val ∧ py = y.val) = true := by simpa using hx
          rw [this, e]
          have l1 : (decide (y.val = py ∧ xb ≤ x.val ∧ b ∈ l)) = false := by simp [hb]
          have l2 : (decide (y.val = py ∧ xb ≤ x.val ∧ b ∈ b :: l)) = true := by simp; omega
          rw [l1, l2, hr]; simp
        · have : decide (xb + b = x.val ∧ py = y.val) = false := by simpa using hx
          rw [this, Bool.xor_false]
          have l1 : (y.val = py ∧ xb ≤ x.val ∧ x.val - xb ∈ b :: l) ↔ (y.val = py ∧ xb ≤ x.val ∧ x.val - xb ∈ l) := by
            simp only [List.mem_cons]
            constructor
            · rintro ⟨a, c, d | d⟩
              · omega
              · exact ⟨a, c, d⟩
            · rintro ⟨a, c, d⟩; exact ⟨a, c, Or.inr d⟩
          rw [decide_eq_decide.mpr l1]
      · rw [h2, plotBit_collides, or_assoc]
        refine or_congr_right ⟨?_, ?_⟩
        · rintro (⟨x, y, hx, hy, h⟩ | ⟨x, y, hy, hx, hm, hr', h⟩)
          · refine ⟨x, y, hy.symm, by omega, ?_, ?_, h⟩
            · rw [show x.val - xb = b by omega]; simp
            · rw [show x.val - xb = b by omega]; exact hr
          · refine ⟨x, y, hy, hx, List.mem_cons_of_mem _ hm, hr', ?_⟩
            rw [plotBit_get] at h
            have : decide (xb + b = x.val ∧ py = y.val) = false := by
              simp only [decide_eq_false_iff_not]
              rintro ⟨e, -⟩
              exact hb (by rw [show b = x.val - xb by omega]; exact hm)
            rw [this, Bool.xor_false] at h
            exact h
        · rintro ⟨x, y, hy, hx, hm, hr', h⟩
          rcases List.mem_cons.mp hm with e | hm
          · exact Or.inl ⟨x, y, by omega, hy.symm, h⟩
          · refine Or.inr ⟨x, y, hy, hx, hm, hr', ?_⟩
            rw [plotBit_get]
            have : decide (xb + b = x.val ∧ py = y.val) = false := by
              simp only [decide_eq_false_iff_not]
              rintro ⟨e, -⟩
              exact hb (by rw [show b = x.val - xb by omega]; exact hm)
            rw [this, Bool.xor_false]
            exact h
    · rw [if_neg hr]
      obtain ⟨h1, h2⟩ := ih p hn
      have key : ∀ n : Nat, n ∈ b :: l → row.getLsbD (7 - n) = true → n ∈ l := fun n hm h => by
        rcases List.mem_cons.mp hm with rfl | hm
        · exact absurd h hr
        · exact hm
      refine ⟨fun x y => ?_, ?_⟩
      · rw [h1]
        congr 1
        by_cases h : row.getLsbD (7 - (x.val - xb)) = true
        · rw [h, Bool.and_true, Bool.and_true]
          refine decide_eq_decide.mpr ⟨?_, ?_⟩
          · rintro ⟨a, c, d⟩; exact ⟨a, c, List.mem_cons_of_mem _ d⟩
          · rintro ⟨a, c, d⟩; exact ⟨a, c, key _ d h⟩
        · simp [h]
      · rw [h2]
        refine or_congr_right ⟨?_, ?_⟩
        · rintro ⟨x, y, hy, hx, hm, hr', h⟩; exact ⟨x, y, hy, hx, List.mem_cons_of_mem _ hm, hr', h⟩
        · rintro ⟨x, y, hy, hx, hm, hr', h⟩; exact ⟨x, y, hy, hx, key _ hm hr', hr', h⟩

/-- One sprite row: each of its set bits flips its pixel. -/
theorem plotRow_get (xb py : Nat) (row : Byte) (p : Plot) (x : Fin 64) (y : Fin 32) :
    Framebuffer.get (plotRow xb py row p).1 x y =
      (Framebuffer.get p.1 x y ^^
        (decide (y.val = py ∧ xb ≤ x.val ∧ x.val < xb + 8) && row.getLsbD (7 - (x.val - xb)))) := by
  unfold plotRow
  rw [(plotBits_spec xb py row (List.range 8) p List.nodup_range).1 x y]
  congr 2
  refine decide_eq_decide.mpr ?_
  simp only [List.mem_range]
  omega

theorem plotRow_collides (xb py : Nat) (row : Byte) (p : Plot) :
    (plotRow xb py row p).2 = true ↔
      p.2 = true ∨ ∃ (x : Fin 64) (y : Fin 32), y.val = py ∧ xb ≤ x.val ∧ x.val < xb + 8 ∧
        row.getLsbD (7 - (x.val - xb)) = true ∧ Framebuffer.get p.1 x y = true := by
  unfold plotRow
  rw [(plotBits_spec xb py row (List.range 8) p List.nodup_range).2]
  refine or_congr_right ⟨?_, ?_⟩
  · rintro ⟨x, y, a, b, c, d⟩; exact ⟨x, y, a, b, by simp only [List.mem_range] at c; omega, d⟩
  · rintro ⟨x, y, a, b, c, d⟩; exact ⟨x, y, a, b, by simp only [List.mem_range]; omega, d⟩

theorem spriteBit_nil (xb yb px py : Nat) : spriteBit xb yb [] px py = false := by simp [spriteBit]

/-- The first row of a sprite, and the rest of it one row further down. -/
theorem spriteBit_cons (xb yb : Nat) (row : Byte) (rows : List Byte) (px py : Nat) :
    spriteBit xb yb (row :: rows) px py =
      ((decide (py = yb ∧ xb ≤ px ∧ px < xb + 8) && row.getLsbD (7 - (px - xb))) ^^ spriteBit xb (yb + 1) rows px py) := by
  unfold spriteBit
  by_cases h : py = yb
  · subst h
    simp [show ¬ py + 1 ≤ py by omega]
  · by_cases h2 : yb ≤ py
    · have e : py - yb = (py - (yb + 1)) + 1 := by omega
      simp [h, h2, e, show yb + 1 ≤ py by omega]
    · simp [h, h2, show ¬ yb + 1 ≤ py by omega]

/-- A whole sprite: each pixel is its old value XOR the sprite bit that falls on it. -/
theorem plotRows_get (xb : Nat) (rows : List Byte) : ∀ (yb : Nat) (p : Plot) (x : Fin 64) (y : Fin 32),
    Framebuffer.get (plotRows xb yb rows p).1 x y = (Framebuffer.get p.1 x y ^^ spriteBit xb yb rows x y) := by
  induction rows with
  | nil => intro yb p x y; simp [plotRows, spriteBit_nil]
  | cons row rows ih =>
    intro yb p x y
    rw [plotRows, ih, plotRow_get, spriteBit_cons, Bool.xor_assoc]

/-- A whole sprite collides when some pixel it covers was on. -/
theorem plotRows_collides (xb : Nat) (rows : List Byte) : ∀ (yb : Nat) (p : Plot),
    (plotRows xb yb rows p).2 = true ↔
      p.2 = true ∨ ∃ (x : Fin 64) (y : Fin 32), spriteBit xb yb rows x y = true ∧ Framebuffer.get p.1 x y = true := by
  induction rows with
  | nil => intro yb p; simp [plotRows, spriteBit_nil]
  | cons row rows ih =>
    intro yb p
    rw [plotRows, ih, plotRow_collides, or_assoc]
    refine or_congr_right ?_
    have split : ∀ (x : Fin 64) (y : Fin 32), spriteBit xb yb (row :: rows) x y = true ↔
        (decide (y.val = yb ∧ xb ≤ x.val ∧ x.val < xb + 8) && row.getLsbD (7 - (x.val - xb))) = true ∨
          spriteBit xb (yb + 1) rows x y = true := by
      intro x y
      rw [spriteBit_cons]
      by_cases h : y.val = yb
      · have : spriteBit xb (yb + 1) rows x y = false := by simp [spriteBit, show ¬ yb + 1 ≤ y.val by omega]
        simp [this]
      · simp [h]
    constructor
    · rintro (⟨x, y, a, b, c, d, e⟩ | ⟨x, y, hs, hg⟩)
      · exact ⟨x, y, (split x y).mpr (Or.inl (by simp [a, b, c, d])), e⟩
      · rw [plotRow_get] at hg
        have hy : y.val ≠ yb := by
          intro e; simp [spriteBit, show ¬ yb + 1 ≤ y.val by omega] at hs
        refine ⟨x, y, (split x y).mpr (Or.inr hs), ?_⟩
        simpa [hy] using hg
    · rintro ⟨x, y, hs, hg⟩
      rcases (split x y).mp hs with h | h
      · simp only [Bool.and_eq_true, decide_eq_true_eq] at h
        exact Or.inl ⟨x, y, h.1.1, h.1.2.1, h.1.2.2, h.2, hg⟩
      · refine Or.inr ⟨x, y, h, ?_⟩
        rw [plotRow_get]
        have hy : y.val ≠ yb := by
          intro e; simp [spriteBit, show ¬ yb + 1 ≤ y.val by omega] at h
        simpa [hy] using hg

end Sys2Proof.Machine
end

