-- ==== Sys2Proof/Laws/Exec.lean ====
section
/-! SUPPORT. The composed operations of the meanings, and what the memory and framebuffer instructions answer. -/

namespace Sys2Proof.Machine

/-! ### Result and flag together (R133) -/

theorem State.getV_setResultThenFlag (s : State) (x r : Reg) (b : Byte) (c : Bool) :
    (s.setResultThenFlag x b c).getV r = if r = regF then flagByte c else if r = x then b else s.getV r := by
  simp [State.setResultThenFlag]

theorem State.getV_setFlagThenResult (s : State) (x r : Reg) (b : Byte) (c : Bool) :
    (s.setFlagThenResult x b c).getV r = if r = x then b else if r = regF then flagByte c else s.getV r := by
  simp [State.setFlagThenResult]

/-- Writing registers is all that `setResultThenFlag` does. -/
theorem State.setResultThenFlag_shape (s : State) (x : Reg) (b : Byte) (c : Bool) :
    ∃ v : Vector Byte 16, s.setResultThenFlag x b c = { s with v := v } := ⟨_, rfl⟩

/-- Writing registers is all that `setFlagThenResult` does. -/
theorem State.setFlagThenResult_shape (s : State) (x : Reg) (b : Byte) (c : Bool) :
    ∃ v : Vector Byte 16, s.setFlagThenResult x b c = { s with v := v } := ⟨_, rfl⟩

theorem State.getV_finishDraw (s : State) (p : Plot) (r : Reg) :
    (s.finishDraw p).getV r = if r = regF then flagByte p.2 else s.getV r :=
  State.getV_setV s regF r (flagByte p.2)

/-- A completed draw writes VF, the pixels and the redraw output. -/
theorem State.finishDraw_shape (s : State) (p : Plot) :
    ∃ v : Vector Byte 16, s.finishDraw p = { s with v := v, fb := p.1, redraw := true } := ⟨_, rfl⟩

/-! ### Registers V0..Vx -/

theorem mem_regsUpTo (x r : Reg) : r ∈ regsUpTo x ↔ r ≤ x := by
  revert x r; decide

theorem length_regsUpTo (x : Reg) : (regsUpTo x).length = x.val + 1 := by
  revert x; decide

theorem getElem_regsUpTo (x : Reg) (k : Nat) (h : k < (regsUpTo x).length) : ((regsUpTo x)[k]).val = k := by
  simp [regsUpTo]

/-! ### What the instructions that reach memory answer -/

/-- LD Vx, [I]: every register up to `x` whose byte is in range takes it; the fault latch changes where the block does not fit. -/
theorem execLoadRegs_shape (x : Reg) (s : State) :
    ∃ v : Vector Byte 16,
      (∀ r, ({ s with v := v } : State).getV r =
        if r ≤ x ∧ s.i.toNat + r.val ≤ 0xFFF then Memory.read s.mem (s.i.toNat + r.val) else s.getV r) ∧
      execLoadRegs x s = .next (
        if s.i.toNat + x.val ≤ 0xFFF then { s with v := v }
        else ({ s with v := v } : State).raise (.segmentationFault (BitVec.ofNat 16 (max s.i.toNat 0x1000)))) := by
  obtain ⟨v, hr, he⟩ := State.loadRegsFrom_shape (regsUpTo x) s s.i.toNat 0
    (fun n hn => by rw [getElem_regsUpTo]; omega)
  refine ⟨v, fun r => ?_, ?_⟩
  · rw [hr r]; simp [mem_regsUpTo]
  · unfold execLoadRegs State.base
    rw [he, length_regsUpTo]
    by_cases h : s.i.toNat + x.val ≤ 0xFFF
    · rw [if_pos (by omega), if_pos h]
    · rw [if_neg (by omega), if_neg h]; rfl

/-- LD [I], Vx: every byte of the block that is in range takes its register; the fault latch changes where the block does not fit. -/
theorem execStoreRegs_shape (x : Reg) (s : State) :
    ∃ m : Memory, (Memory.wf s.mem → Memory.wf m) ∧
      (∀ k : Reg, k ≤ x → s.i.toNat + k.val ≤ 0xFFF → Memory.read m (s.i.toNat + k.val) = s.getV k) ∧
      (∀ a, (∀ k : Reg, k ≤ x → s.i.toNat + k.val ≤ 0xFFF → a ≠ s.i.toNat + k.val) →
        Memory.read m a = Memory.read s.mem a) ∧
      execStoreRegs x s = .next (
        if s.i.toNat + x.val ≤ 0xFFF then { s with mem := m }
        else ({ s with mem := m } : State).raise (.segmentationFault (BitVec.ofNat 16 (max s.i.toNat 0x1000)))) := by
  obtain ⟨m, hwf, hr, he⟩ := State.storeBytes_shape ((regsUpTo x).map s.getV) s s.i.toNat
  rw [List.length_map, length_regsUpTo] at hr he
  refine ⟨m, hwf, fun k hk hv => ?_, fun a ha => ?_, ?_⟩
  · have hk' : k.val ≤ x.val := hk
    rw [hr, if_pos (by omega), show s.i.toNat + k.val - s.i.toNat = k.val by omega,
      List.getD_eq_getElem _ _ (by rw [List.length_map, length_regsUpTo]; omega), List.getElem_map]
    congr 1
    exact Fin.ext (getElem_regsUpTo x k.val _)
  · rw [hr, if_neg]
    rintro ⟨h1, h2, h3⟩
    have hx := x.isLt
    exact ha ⟨a - s.i.toNat, by omega⟩ (by show a - s.i.toNat ≤ x.val; omega)
      (by show s.i.toNat + (a - s.i.toNat) ≤ 0xFFF; omega) (by show a = s.i.toNat + (a - s.i.toNat); omega)
  · unfold execStoreRegs State.base
    rw [he]
    by_cases h : s.i.toNat + x.val ≤ 0xFFF
    · rw [if_pos (by omega), if_pos h]
    · rw [if_neg (by omega), if_neg h]

theorem execDrw_reads (x y : Reg) (n : Fin 16) (s : State) (h : n.val = 0 ∨ s.i.toNat + n.val ≤ 0x1000) :
    execDrw x y n s =
      .next (s.finishDraw (plotRows (originX (s.getV x)) (originY (s.getV y)) (s.spriteAt n) (s.fb, false))) := by
  unfold execDrw State.base
  rw [State.readBytes_eq, if_pos h]; rfl

theorem execDrw_faults (x y : Reg) (n : Fin 16) (s : State) (h : n.val ≠ 0 ∧ 0x1000 < s.i.toNat + n.val) :
    execDrw x y n s = .next (s.raise (.segmentationFault (BitVec.ofNat 16 (max s.i.toNat 0x1000)))) := by
  unfold execDrw State.base
  rw [State.readBytes_eq, if_neg (by omega)]

/-- Every meaning answers a next state: no instruction of the map stops the machine outside its own HALT (log 1). -/
theorem exec_next (i : Instr) (s : State) : ∃ t, exec i s = .next t := by
  cases i <;> simp only [exec] <;> first
    | exact ⟨_, rfl⟩
    | (unfold execRet; split <;> exact ⟨_, rfl⟩)
    | (unfold execJp; split <;> exact ⟨_, rfl⟩)
    | (unfold execCall; split <;> exact ⟨_, rfl⟩)
    | (unfold execDrw; split <;> exact ⟨_, rfl⟩)
    | (unfold execLdVxK; split <;> exact ⟨_, rfl⟩)

end Sys2Proof.Machine
end

