-- ==== Sys2Proof/Laws/PerInstr.lean ====
section
/-! SUPPORT. Per instruction: the word of an instruction has its row's fixed bits (30_encoding.md R65: `w & mask = match`). -/

namespace Sys2Proof.Laws.FixedBits

/-- The encoded word agrees with the `mask` and `match` columns of the instruction's row (R65). -/
def Statement (i : Instr) : Prop := encode i &&& rowMask i = rowMatch i

theorem sys (nnn : Addr12) : Statement (.sys nnn) := by
  refine (and_F000 _).trans ?_; rw [encode, fieldOp_encodeNnn]; rfl

theorem cls : Statement (.cls) := rfl

theorem ret : Statement (.ret) := rfl

theorem jp (nnn : Addr12) : Statement (.jp nnn) := by
  refine (and_F000 _).trans ?_; rw [encode, fieldOp_encodeNnn]; rfl

theorem call (nnn : Addr12) : Statement (.call nnn) := by
  refine (and_F000 _).trans ?_; rw [encode, fieldOp_encodeNnn]; rfl

theorem seByte (x : Reg) (kk : Byte) : Statement (.seByte x kk) := by
  refine (and_F000 _).trans ?_; rw [encode, fieldOp_encodeXkk]; rfl

theorem sneByte (x : Reg) (kk : Byte) : Statement (.sneByte x kk) := by
  refine (and_F000 _).trans ?_; rw [encode, fieldOp_encodeXkk]; rfl

theorem seReg (x : Reg) (y : Reg) : Statement (.seReg x y) := by
  refine (and_F00F _).trans ?_; rw [encode, fieldOp_encodeXyn, fieldN_encodeXyn]; rfl

theorem ldByte (x : Reg) (kk : Byte) : Statement (.ldByte x kk) := by
  refine (and_F000 _).trans ?_; rw [encode, fieldOp_encodeXkk]; rfl

theorem addByte (x : Reg) (kk : Byte) : Statement (.addByte x kk) := by
  refine (and_F000 _).trans ?_; rw [encode, fieldOp_encodeXkk]; rfl

theorem ldReg (x : Reg) (y : Reg) : Statement (.ldReg x y) := by
  refine (and_F00F _).trans ?_; rw [encode, fieldOp_encodeXyn, fieldN_encodeXyn]; rfl

theorem orReg (x : Reg) (y : Reg) : Statement (.orReg x y) := by
  refine (and_F00F _).trans ?_; rw [encode, fieldOp_encodeXyn, fieldN_encodeXyn]; rfl

theorem andReg (x : Reg) (y : Reg) : Statement (.andReg x y) := by
  refine (and_F00F _).trans ?_; rw [encode, fieldOp_encodeXyn, fieldN_encodeXyn]; rfl

theorem xorReg (x : Reg) (y : Reg) : Statement (.xorReg x y) := by
  refine (and_F00F _).trans ?_; rw [encode, fieldOp_encodeXyn, fieldN_encodeXyn]; rfl

theorem addReg (x : Reg) (y : Reg) : Statement (.addReg x y) := by
  refine (and_F00F _).trans ?_; rw [encode, fieldOp_encodeXyn, fieldN_encodeXyn]; rfl

theorem subReg (x : Reg) (y : Reg) : Statement (.subReg x y) := by
  refine (and_F00F _).trans ?_; rw [encode, fieldOp_encodeXyn, fieldN_encodeXyn]; rfl

theorem shr (x : Reg) (y : Reg) : Statement (.shr x y) := by
  refine (and_F00F _).trans ?_; rw [encode, fieldOp_encodeXyn, fieldN_encodeXyn]; rfl

theorem subnReg (x : Reg) (y : Reg) : Statement (.subnReg x y) := by
  refine (and_F00F _).trans ?_; rw [encode, fieldOp_encodeXyn, fieldN_encodeXyn]; rfl

theorem shl (x : Reg) (y : Reg) : Statement (.shl x y) := by
  refine (and_F00F _).trans ?_; rw [encode, fieldOp_encodeXyn, fieldN_encodeXyn]; rfl

theorem sneReg (x : Reg) (y : Reg) : Statement (.sneReg x y) := by
  refine (and_F00F _).trans ?_; rw [encode, fieldOp_encodeXyn, fieldN_encodeXyn]; rfl

theorem ldI (nnn : Addr12) : Statement (.ldI nnn) := by
  refine (and_F000 _).trans ?_; rw [encode, fieldOp_encodeNnn]; rfl

theorem jpV0 (nnn : Addr12) : Statement (.jpV0 nnn) := by
  refine (and_F000 _).trans ?_; rw [encode, fieldOp_encodeNnn]; rfl

theorem rnd (x : Reg) (kk : Byte) : Statement (.rnd x kk) := by
  refine (and_F000 _).trans ?_; rw [encode, fieldOp_encodeXkk]; rfl

theorem drw (x : Reg) (y : Reg) (n : Fin 16) : Statement (.drw x y n) := by
  refine (and_F000 _).trans ?_; rw [encode, fieldOp_encodeXyn]; rfl

theorem skp (x : Reg) : Statement (.skp x) := by
  refine (and_F0FF _).trans ?_; rw [encode, fieldOp_encodeXkk, fieldKk_encodeXkk]; rfl

theorem sknp (x : Reg) : Statement (.sknp x) := by
  refine (and_F0FF _).trans ?_; rw [encode, fieldOp_encodeXkk, fieldKk_encodeXkk]; rfl

theorem ldVxDT (x : Reg) : Statement (.ldVxDT x) := by
  refine (and_F0FF _).trans ?_; rw [encode, fieldOp_encodeXkk, fieldKk_encodeXkk]; rfl

theorem ldVxK (x : Reg) : Statement (.ldVxK x) := by
  refine (and_F0FF _).trans ?_; rw [encode, fieldOp_encodeXkk, fieldKk_encodeXkk]; rfl

theorem ldDTVx (x : Reg) : Statement (.ldDTVx x) := by
  refine (and_F0FF _).trans ?_; rw [encode, fieldOp_encodeXkk, fieldKk_encodeXkk]; rfl

theorem ldSTVx (x : Reg) : Statement (.ldSTVx x) := by
  refine (and_F0FF _).trans ?_; rw [encode, fieldOp_encodeXkk, fieldKk_encodeXkk]; rfl

theorem addI (x : Reg) : Statement (.addI x) := by
  refine (and_F0FF _).trans ?_; rw [encode, fieldOp_encodeXkk, fieldKk_encodeXkk]; rfl

theorem ldF (x : Reg) : Statement (.ldF x) := by
  refine (and_F0FF _).trans ?_; rw [encode, fieldOp_encodeXkk, fieldKk_encodeXkk]; rfl

theorem ldB (x : Reg) : Statement (.ldB x) := by
  refine (and_F0FF _).trans ?_; rw [encode, fieldOp_encodeXkk, fieldKk_encodeXkk]; rfl

theorem storeRegs (x : Reg) : Statement (.storeRegs x) := by
  refine (and_F0FF _).trans ?_; rw [encode, fieldOp_encodeXkk, fieldKk_encodeXkk]; rfl

theorem loadRegs (x : Reg) : Statement (.loadRegs x) := by
  refine (and_F0FF _).trans ?_; rw [encode, fieldOp_encodeXkk, fieldKk_encodeXkk]; rfl

end Sys2Proof.Laws.FixedBits
end

