-- ==== Sys2Proof/Laws/Step.lean ====
section
/-! SUPPORT. What one clock edge can do, said once: an inversion of `step`, and the equation of each of its cases. -/

namespace Sys2Proof.Machine

/-! ### The state the engine's step starts from -/

@[simp] theorem State.atStep_v (s : State) : s.atStep.v = s.v := by unfold State.atStep; split <;> simp
@[simp] theorem State.atStep_i (s : State) : s.atStep.i = s.i := by unfold State.atStep; split <;> simp
@[simp] theorem State.atStep_pc (s : State) : s.atStep.pc = s.pc := by unfold State.atStep; split <;> simp
@[simp] theorem State.atStep_stack (s : State) : s.atStep.stack = s.stack := by unfold State.atStep; split <;> simp
@[simp] theorem State.atStep_sp (s : State) : s.atStep.sp = s.sp := by unfold State.atStep; split <;> simp
@[simp] theorem State.atStep_st (s : State) : s.atStep.st = s.st := by unfold State.atStep; split <;> simp
@[simp] theorem State.atStep_fb (s : State) : s.atStep.fb = s.fb := by unfold State.atStep; split <;> simp
@[simp] theorem State.atStep_mem (s : State) : s.atStep.mem = s.mem := by unfold State.atStep; split <;> simp
@[simp] theorem State.atStep_runState (s : State) : s.atStep.runState = s.runState := by
  unfold State.atStep; split <;> simp
@[simp] theorem State.atStep_faultCode (s : State) : s.atStep.faultCode = s.faultCode := by
  unfold State.atStep; split <;> simp
@[simp] theorem State.atStep_faultInfo (s : State) : s.atStep.faultInfo = s.faultInfo := by
  unfold State.atStep; split <;> simp
@[simp] theorem State.atStep_redraw (s : State) : s.atStep.redraw = false := by unfold State.atStep; split <;> simp
@[simp] theorem State.atStep_config (s : State) : s.atStep.config = s.config := by unfold State.atStep; split <;> simp
@[simp] theorem State.atStep_pins (s : State) : s.atStep.pins = s.nextPins := by unfold State.atStep; split <;> simp
@[simp] theorem State.getV_atStep (s : State) (r : Reg) : s.atStep.getV r = s.getV r :=
  State.getV_of_v_eq _ _ (by simp) r

/-- What the fetch answers: the word at PC, or the fault of its first byte out of range (R81). -/
theorem State.fetch_eq (s : State) :
    s.fetch =
      if s.pc.toNat + 1 ≤ 0xFFF then .ok s.wordAtPc
      else if s.pc.toNat = 0xFFF then .error (.segmentationFault 0x1000)
      else .error (.segmentationFault s.pc) := by
  unfold State.fetch
  rw [memReadWord_eq]
  simp [State.wordAtPc]

/-! ### The cases of a clock edge -/

theorem step_eq (s : State) :
    step s =
      if s.nextPins.rst = true then .next s.sampleInputs.takeReset
      else match s.runState with
        | .load => .next s.sampleInputs.loadEdge
        | .run => if s.nextPins.step = true then engineStep s.atStep else .next s.atStep
        | .halt => .next s.sampleInputs := rfl

theorem engineStep_eq (s : State) :
    engineStep s =
      match s.fetch with
      | .error f => .next (s.raise f)
      | .ok w =>
        match decode s.config.sysPolicy w with
        | .error _ => .next ((s.setPc (s.pc + 2)).raise (.invalidInstruction w))
        | .ok i => exec i (s.setPc (s.pc + 2)) := rfl

/-- Everything one clock edge can do. -/
theorem step_cases (s t : State) (h : step s = .next t) :
    (s.nextPins.rst = true ∧ t = s.sampleInputs.takeReset) ∨
    (s.nextPins.rst = false ∧ s.runState = .load ∧ t = s.sampleInputs.loadEdge) ∨
    (s.nextPins.rst = false ∧ s.runState = .halt ∧ t = s.sampleInputs) ∨
    (s.nextPins.rst = false ∧ s.runState = .run ∧ s.nextPins.step = false ∧ t = s.atStep) ∨
    (s.steps ∧ s.pc.toNat = 0xFFF ∧ t = s.atStep.raise (.segmentationFault 0x1000)) ∨
    (s.steps ∧ 0xFFF < s.pc.toNat ∧ t = s.atStep.raise (.segmentationFault s.pc)) ∨
    (s.steps ∧ s.pc.toNat + 1 ≤ 0xFFF ∧ (∃ e, decode s.config.sysPolicy s.wordAtPc = .error e) ∧
      t = (s.atStep.setPc (s.pc + 2)).raise (.invalidInstruction s.wordAtPc)) ∨
    (s.steps ∧ ∃ i, s.fetches i ∧ exec i (s.atStep.setPc (s.pc + 2)) = .next t) := by
  by_cases hr : s.nextPins.rst = true
  · left; rw [step_eq, if_pos hr] at h; exact ⟨hr, by injection h with h; exact h.symm⟩
  have hr' : s.nextPins.rst = false := by simpa using hr
  right
  rw [step_eq, if_neg hr] at h
  cases hs : s.runState with
  | load => left; rw [hs] at h; injection h with h; exact ⟨hr', rfl, h.symm⟩
  | halt => right; left; rw [hs] at h; injection h with h; exact ⟨hr', rfl, h.symm⟩
  | run =>
    right; right
    rw [hs] at h
    by_cases hp : s.nextPins.step = true
    · right
      have hsteps : s.steps := ⟨hs, hr', hp⟩
      simp only [hp, if_true] at h
      have hw : s.atStep.wordAtPc = s.wordAtPc := by simp [State.wordAtPc]
      rw [engineStep_eq, State.fetch_eq] at h
      simp only [State.atStep_pc, hw, State.atStep_config] at h
      by_cases hpc : s.pc.toNat + 1 ≤ 0xFFF
      · right; right
        simp only [hpc, if_true] at h
        cases hd : decode s.config.sysPolicy s.wordAtPc with
        | error e => left; rw [hd] at h; injection h with h; exact ⟨hsteps, hpc, ⟨e, rfl⟩, h.symm⟩
        | ok i => right; rw [hd] at h; exact ⟨hsteps, i, ⟨hpc, hd⟩, h⟩
      · simp only [hpc, if_false] at h
        by_cases he : s.pc.toNat = 0xFFF
        · left; simp only [he, if_true] at h; injection h with h; exact ⟨hsteps, he, h.symm⟩
        · right; left; simp only [he, if_false] at h; injection h with h; exact ⟨hsteps, by omega, h.symm⟩
    · left
      simp only [hp] at h
      exact ⟨hr', rfl, by simpa using hp, by injection h with h; exact h.symm⟩

/-- Every clock edge answers a next state (log 1). -/
theorem step_next (s : State) : ∃ t, step s = .next t := by
  rw [step_eq]
  split
  · exact ⟨_, rfl⟩
  · split
    · exact ⟨_, rfl⟩
    · split
      · rw [engineStep_eq]
        split
        · exact ⟨_, rfl⟩
        · split
          · exact ⟨_, rfl⟩
          · exact exec_next _ _
      · exact ⟨_, rfl⟩
    · exact ⟨_, rfl⟩

end Sys2Proof.Machine
end

