-- ==== Sys2Proof/Laws/Strobes.lean ====
section
/-! SUPPORT. The free strobes are high infinitely often, and the sample a clock edge takes. -/

namespace Sys2Proof.Machine

/-! ### A strobe given by its gaps -/

theorem strobeTime_succ (gap : Nat → Nat) (k : Nat) :
    strobeTime gap (k + 1) = strobeTime gap k + 1 + gap (k + 1) := rfl

theorem strobeTime_strictMono (gap : Nat → Nat) : StrictMono (strobeTime gap) :=
  strictMono_nat_of_lt_succ fun k => by rw [strobeTime_succ]; omega

theorem strobe_iff (gap : Nat → Nat) (n : Nat) : strobe gap n = true ↔ ∃ k, strobeTime gap k = n := by
  simp only [strobe, List.any_eq_true, List.mem_range, decide_eq_true_eq]
  refine ⟨fun ⟨k, _, h⟩ => ⟨k, h⟩, fun ⟨k, h⟩ => ⟨k, ?_, h⟩⟩
  have := (strobeTime_strictMono gap).le_apply (x := k)
  omega

/-- Whatever edge is given, the strobe is high at it or later. -/
theorem strobe_fair (gap : Nat → Nat) (n : Nat) : ∃ m, n ≤ m ∧ strobe gap m = true :=
  ⟨strobeTime gap n, (strobeTime_strictMono gap).le_apply, (strobe_iff gap _).mpr ⟨n, rfl⟩⟩

/-- The gaps leave out no strobe that is high infinitely often: a free strobe is ruled by fairness and by nothing else (log 22). -/
theorem exists_gap_of_fair (f : Nat → Bool) (hf : ∀ n, ∃ m, n ≤ m ∧ f m = true) :
    ∃ gap : Nat → Nat, ∀ n, strobe gap n = f n := by
  have hinf : {n | f n = true}.Infinite := by
    rw [Set.infinite_iff_exists_gt]
    intro a
    obtain ⟨m, h, hm⟩ := hf (a + 1)
    exact ⟨m, hm, by omega⟩
  let pulse := Nat.nth (fun n => f n = true)
  have hmono : ∀ k, pulse k < pulse (k + 1) := fun k => Nat.nth_strictMono hinf (Nat.lt_succ_self k)
  refine ⟨fun k => match k with | 0 => pulse 0 | k + 1 => pulse (k + 1) - pulse k - 1, fun n => ?_⟩
  have htime : ∀ k, strobeTime (fun k => match k with | 0 => pulse 0 | k + 1 => pulse (k + 1) - pulse k - 1) k = pulse k := by
    intro k
    induction k with
    | zero => rfl
    | succ k ih =>
      rw [strobeTime_succ, ih]
      have := hmono k
      simp only
      omega
  rw [Bool.eq_iff_iff, strobe_iff]
  refine ⟨fun ⟨k, hk⟩ => ?_, fun h => ⟨Nat.count (fun n => f n = true) n, (htime _).trans (Nat.nth_count h)⟩⟩
  rw [← hk, htime]
  exact Nat.nth_mem_of_infinite hinf k

/-! ### The samples of the coming edges -/

theorem State.nextPins_eq_sampleAt (s : State) : s.nextPins = s.sampleAt 0 := by
  unfold State.nextPins State.sampleAt
  cases s.script <;> rfl

/-- An edge uses up the sample at the head: what was the sample `n + 1` edges ahead is now `n` ahead. -/
theorem State.sampleAt_tail (s t : State) (hs : t.script = s.script.tail) (hc : t.cycle = s.cycle + 1) (n : Nat) :
    t.sampleAt n = s.sampleAt (n + 1) := by
  unfold State.sampleAt
  rw [hs, hc, show s.cycle + 1 + n = s.cycle + (n + 1) by omega]
  cases s.script <;> simp

/-- After the script the samples are the free ones. -/
theorem State.sampleAt_free (s : State) (n : Nat) (h : s.script.length ≤ n) : s.sampleAt n = freePins (s.cycle + n) := by
  unfold State.sampleAt
  exact List.getD_eq_default _ _ h

/-! ### Runs -/

@[simp] theorem State.reaches_zero (s t : State) : s.reaches 0 t ↔ t = s :=
  ⟨fun h => by injection h with h; exact h.symm, fun h => h ▸ rfl⟩

/-- The first edge of a longer run. -/
theorem State.reaches_succ (s t : State) (n : Nat) : s.reaches (n + 1) t ↔ ∃ u, step s = .next u ∧ u.reaches n t := by
  obtain ⟨u, hu⟩ := step_next s
  have hc : Host.Core.run Sys2Proof.core (n + 1) s = Host.Core.run Sys2Proof.core n u := by
    simp only [Host.Core.run]
    rw [show Sys2Proof.core.step s = .next u from hu]
  unfold State.reaches
  rw [hc]
  refine ⟨fun h => ⟨u, hu, h⟩, fun ⟨u', hu', h⟩ => ?_⟩
  rw [hu] at hu'
  injection hu' with e
  subst e
  exact h

end Sys2Proof.Machine
end

