-- ==== Sys2Proof/Tests/Slice0.lean ====
section
/-! SUPPORT. Tests: expected values from the spec's opcode map (30_encoding.md) and vectors (95_test_vectors.md, whose ids stand in
the comments), each about one step; and for each statement with hypotheses a state and operands that meet them. -/

namespace Sys2Proof.Tests

open Sys2Proof Sys2Proof.Machine

/-! ### Helpers -/

/-- The instruction a word decodes to. -/
def dec (w : Word) : Option Instr := (decode .nop w).toOption

/-- A field of the state after one step. -/
def after {α : Type} (f : State → α) (s : State) : Option α :=
  match step s with
  | .next t => some (f t)
  | .fault _ => none
  | .refused _ => none

/-- An edge with the step strobe. -/
def oneStep : Pins := { Pins.low with step := true }

/-- The start state of the vectors: reset, RUN, PC = 0200, the word stored there. -/
def run (w : Word) : State := placeWord State.reset w

/-- The same with the word at `pc`, also where it cannot be fetched whole. -/
def runAt (pc w : Word) : State :=
  { State.reset with
    mem := Memory.write (Memory.write [] pc.toNat (hiByte w)) (pc.toNat + 1) (loByte w)
    pc := pc
    runState := .run
    script := [oneStep] }

/-- Bytes put into memory. -/
def withBytes (a : Nat) : List Byte → State → State
  | [], s => s
  | b :: bs, s => withBytes (a + 1) bs { s with mem := Memory.write s.mem a b }

/-- Pixels turned on. -/
def withPixels : List (Fin 64 × Fin 32) → State → State
  | [], s => s
  | p :: ps, s => withPixels ps { s with fb := Framebuffer.toggle s.fb p.1 p.2 }

/-- The coming edge samples these pins. -/
def withPins (p : Pins) (s : State) : State := { s with script := [p] }

/-- A platform with a keypad, these keys held, and the step strobe. -/
def withKeys (k : Word) (s : State) : State :=
  { s with config := { s.config with keysPresent := true }, script := [{ oneStep with keys := k }] }

/-- `n` return addresses on the stack, all `a`. -/
def withStack (n : Fin 17) (a : Word) (s : State) : State := { s with sp := n, stack := Vector.replicate 16 a }

/-- RUN_STATE, FAULT_CODE, FAULT_INFO. -/
def latch (s : State) : RunState × BitVec 4 × Word := (s.runState, s.faultCode, s.faultInfo)

/-- The bytes at `a` upward. -/
def bytesAt (a n : Nat) (s : State) : List Byte := (List.range n).map (fun k => Memory.read s.mem (a + k))

/-- Whether each of these pixels is on. -/
def pixels (l : List (Fin 64 × Fin 32)) (s : State) : List Bool := l.map (fun p => Framebuffer.get s.fb p.1 p.2)

/-! ### Well-formedness (30_encoding.md R69) -/

theorem test_wellFormed_refuses_sys_0E0 : Instr.wellFormed (.sys 0x0E0) = false := by decide
theorem test_wellFormed_refuses_sys_0EE : Instr.wellFormed (.sys 0x0EE) = false := by decide
theorem test_wellFormed_accepts_sys_0E1 : Instr.wellFormed (.sys 0x0E1) = true := by decide

/-! ### Decoding: a word of every constructor, written out from the opcode map -/

theorem test_decode_family_0 :
    [0x0123, 0x0000, 0x00E1, 0x00E0, 0x00EE].map dec =
      [some (.sys 0x123), some (.sys 0x000), some (.sys 0x0E1), some .cls, some .ret] := by decide

theorem test_decode_nnn :
    [0x1234, 0x2FFE, 0xA050, 0xB300].map dec =
      [some (.jp 0x234), some (.call 0xFFE), some (.ldI 0x050), some (.jpV0 0x300)] := by decide

theorem test_decode_xkk :
    [0x332A, 0x4F01, 0x6005, 0x7EFF, 0xC30F].map dec =
      [some (.seByte 3 0x2A), some (.sneByte 0xF 0x01), some (.ldByte 0 0x05), some (.addByte 0xE 0xFF),
        some (.rnd 3 0x0F)] := by decide

theorem test_decode_xy :
    [0x5120, 0x9AB0].map dec = [some (.seReg 1 2), some (.sneReg 0xA 0xB)] := by decide

theorem test_decode_family_8 :
    [0x8120, 0x8341, 0x8562, 0x8783, 0x89A4, 0x8BC5, 0x8DE6, 0x8F07, 0x8ABE].map dec =
      [some (.ldReg 1 2), some (.orReg 3 4), some (.andReg 5 6), some (.xorReg 7 8), some (.addReg 9 0xA),
        some (.subReg 0xB 0xC), some (.shr 0xD 0xE), some (.subnReg 0xF 0), some (.shl 0xA 0xB)] := by decide

theorem test_decode_drw : dec 0xD12F = some (.drw 1 2 15) := by decide

theorem test_decode_family_E : [0xE29E, 0xE3A1].map dec = [some (.skp 2), some (.sknp 3)] := by decide

theorem test_decode_family_F :
    [0xF307, 0xF40A, 0xF515, 0xF618, 0xF71E, 0xF829, 0xF933, 0xFA55, 0xFF65].map dec =
      [some (.ldVxDT 3), some (.ldVxK 4), some (.ldDTVx 5), some (.ldSTVx 6), some (.addI 7), some (.ldF 8), some (.ldB 9),
        some (.storeRegs 0xA), some (.loadRegs 0xF)] := by decide

/-- E11 to E17. -/
theorem test_decode_invalid_5_8_9 :
    [0x5121, 0x512F, 0x9001, 0x8128, 0x8009, 0x812A, 0x812B, 0x812C, 0x812D, 0x812F].map dec = List.replicate 10 none := by
  decide

/-- E18 to E27. -/
theorem test_decode_invalid_E_F :
    [0xE09F, 0xE0A0, 0xE19D, 0xE000, 0xF000, 0xF01F, 0xF166, 0xF056, 0xF075, 0xF085, 0xFFFF].map dec =
      List.replicate 11 none := by decide

/-- E14, E27: the word is the info. -/
theorem test_decode_invalid_info :
    decode .nop 0x8128 = .error (.invalidInstruction 0x8128) ∧ decode .nop 0xFFFF = .error (.invalidInstruction 0xFFFF) := by
  decide

/-- E29, E30, E31. -/
theorem test_decode_policy :
    decode .invalid 0x0123 = .error (.invalidInstruction 0x0123) ∧
    decode .invalid 0x0000 = .error (.invalidInstruction 0x0000) ∧ decode .invalid 0x00E0 = .ok .cls := by decide

/-- S13: the byte at the lower address is the high byte; the bytes after the word are handed back. -/
theorem test_decode_bytes : decodeBytes .nop [0x12, 0x34, 0x56] = .ok (.jp 0x234, [0x56]) := by decide

theorem test_decode_bytes_truncated : decodeBytes .nop [0x12] = .error (.truncated [0x12]) := by decide

theorem test_decode_table_word :
    decodeTableWord 16 0xD12F = some (.drw 1 2 15) ∧ decodeTableWord 16 0x8128 = none := by decide

theorem test_encode :
    [.jp 0x234, .ldByte 6 0x12, .shl 0xA 0xB, .drw 1 2 15, .loadRegs 0xF].map encode =
      [0x1234, 0x6612, 0x8ABE, 0xD12F, (0xFF65 : Word)] := by decide

/-- The host's placing of a word: the very next step runs it. -/
theorem test_withFetchWord : after (fun t => (t.getV 0, t.pc)) (State.reset.withFetchWord 16 0x6005) = some (0x05, 0x0202) := by
  decide

/-! ### Fetch and PC -/

/-- F1. -/
theorem test_fetch_last_word : after (fun t => (t.getV 0xA, t.pc, latch t)) (runAt 0x0FFE 0x6A55) =
    some (0x55, 0x1000, .run, 0, 0) := by decide

/-- F2. -/
theorem test_fetch_half : after (fun t => (t.pc, latch t)) (runAt 0x0FFF 0x6A00) =
    some (0x0FFF, .halt, 1, 0x1000) := by decide

/-- Step 2 of F4. -/
theorem test_fetch_beyond : after (fun t => (t.pc, latch t)) (runAt 0x10FE 0x0000) =
    some (0x10FE, .halt, 1, 0x10FE) := by decide

/-- Step 2 of F5: an odd PC is fine. -/
theorem test_fetch_odd : after (fun t => (t.getV 0, t.pc)) (runAt 0x0301 0x6012) = some (0x12, 0x0303) := by decide

/-- E28. -/
theorem test_invalid_word : after (fun t => (t.pc, latch t)) (run 0x8128) = some (0x0202, .halt, 4, 0x8128) := by decide

/-! ### Control transfer -/

/-- E2. -/
theorem test_sys : after (fun t => (t.pc, latch t)) (run 0x0123) = some (0x0202, .run, 0, 0) := by decide

/-- C4. -/
theorem test_jp : after (fun t => (t.pc, latch t)) (run 0x11FE) = some (0x01FE, .run, 0, 0) := by decide

/-- C2, S8. -/
theorem test_jp_self : after (fun t => (t.pc, latch t)) (run 0x1200) = some (0x0202, .halt, 6, 0) := by decide

/-- C7. -/
theorem test_call_sixteenth : after (fun t => (t.pc, t.sp.val, t.stack[15], t.stack[14]))
    (withStack 15 0x0999 (run 0x2300)) = some (0x0300, 16, 0x0202, 0x0999) := by decide

/-- C8. -/
theorem test_call_overflow : after (fun t => (t.pc, t.sp.val, latch t)) (withStack 16 0x0999 (run 0x2300)) =
    some (0x0202, 16, .halt, 5, 0) := by decide

/-- C12. -/
theorem test_ret : after (fun t => (t.pc, t.sp.val, t.stack[1]))
    { withStack 2 0x0202 (runAt 0x0300 0x00EE) with stack := (Vector.replicate 16 0x0202).set 1 0x0456 } =
      some (0x0456, 1, 0x0456) := by decide

/-- C11. -/
theorem test_ret_underflow : after (fun t => (t.pc, t.sp.val, latch t)) (runAt 0x0300 0x00EE) =
    some (0x0302, 0, .halt, 8, 0) := by decide

/-- C14 and F4. -/
theorem test_jpV0 : after (·.pc) ((run 0xB300).setV 0 0x04) = some 0x0304 ∧
    after (fun t => (t.pc, latch t)) ((run 0xBFFF).setV 0 0xFF) = some (0x10FE, .run, 0, 0) := by decide

/-- C15: JP V0 to itself is not detected. -/
theorem test_jpV0_self : after (fun t => (t.pc, latch t)) (run 0xB200) = some (0x0200, .run, 0, 0) := by decide

/-- C16, C17. -/
theorem test_seByte : after (·.pc) ((run 0x332A).setV 3 0x2A) = some 0x0204 ∧
    after (·.pc) ((run 0x332A).setV 3 0x2B) = some 0x0202 := by decide

/-- C18, C19. -/
theorem test_sneByte : after (·.pc) ((run 0x432A).setV 3 0x2A) = some 0x0202 ∧
    after (·.pc) (run 0x432A) = some 0x0204 := by decide

/-- C20, C21. -/
theorem test_seReg : after (·.pc) (((run 0x5120).setV 1 0x07).setV 2 0x07) = some 0x0204 ∧
    after (·.pc) (((run 0x5120).setV 1 0x07).setV 2 0x08) = some 0x0202 := by decide

/-- C23, C24. -/
theorem test_sneReg : after (·.pc) (((run 0x9120).setV 1 0x07).setV 2 0x08) = some 0x0204 ∧
    after (·.pc) (((run 0x9120).setV 1 0x07).setV 2 0x07) = some 0x0202 := by decide

/-- C27: a skip past the end is no fault. -/
theorem test_skip_past_end : after (fun t => (t.pc, latch t)) (runAt 0x0FFE 0x3000) = some (0x1002, .run, 0, 0) := by decide

/-! ### ALU and register instructions -/

/-- A39. -/
theorem test_ldByte : after (·.getV 0xF) (run 0x6FFF) = some 0xFF := by decide

/-- A40: no carry flag. -/
theorem test_addByte : after (fun t => (t.getV 0, t.getV 0xF)) ((run 0x7001).setV 0 0xFF) = some (0x00, 0x00) := by decide

/-- A43. -/
theorem test_ldReg : after (fun t => (t.getV 1, t.getV 2)) (((run 0x8120).setV 1 0x11).setV 2 0x22) =
    some (0x22, 0x22) := by decide

/-- A45. -/
theorem test_orReg : after (fun t => (t.getV 1, t.getV 0xF)) ((((run 0x8121).setV 1 0xF0).setV 2 0x0F).setV 0xF 0x01) =
    some (0xFF, 0x01) := by decide

/-- A46. -/
theorem test_andReg : after (fun t => (t.getV 1, t.getV 0xF)) ((((run 0x8122).setV 1 0xF0).setV 2 0x3C).setV 0xF 0x01) =
    some (0x30, 0x01) := by decide

/-- A47. -/
theorem test_xorReg : after (fun t => (t.getV 1, t.getV 0xF)) ((((run 0x8123).setV 1 0xF0).setV 2 0x3C).setV 0xF 0x01) =
    some (0xCC, 0x01) := by decide

/-- A1. -/
theorem test_addReg : after (fun t => (t.getV 1, t.getV 0xF)) (((run 0x8124).setV 1 0xC8).setV 2 0x64) =
    some (0x2C, 0x01) := by decide

/-- A8: with x = F the flag is written last. -/
theorem test_addReg_vf : after (·.getV 0xF) (((run 0x8F14).setV 0xF 0x02).setV 1 0x01) = some 0x00 := by decide

/-- A12: equal, no borrow. -/
theorem test_subReg : after (fun t => (t.getV 1, t.getV 0xF)) (((run 0x8125).setV 1 0x07).setV 2 0x07) =
    some (0x00, 0x01) := by decide

/-- A17: the subtrahend is VF. -/
theorem test_subReg_vf : after (fun t => (t.getV 1, t.getV 0xF)) (((run 0x81F5).setV 1 0x03).setV 0xF 0x05) =
    some (0xFE, 0x00) := by decide

/-- A25: Vy is neither read nor written. -/
theorem test_shr : after (fun t => (t.getV 4, t.getV 0xF, t.getV 5)) (((run 0x8456).setV 4 0xFE).setV 5 0x01) =
    some (0x7F, 0x00, 0x01) := by decide

/-- A27: with x = F the shifted value is written last. -/
theorem test_shr_vf : after (·.getV 0xF) ((run 0x8F06).setV 0xF 0x01) = some 0x00 := by decide

/-- A19. -/
theorem test_subnReg : after (fun t => (t.getV 1, t.getV 0xF)) (((run 0x8127).setV 1 0x0A).setV 2 0x05) =
    some (0xFB, 0x00) := by decide

/-- A21. -/
theorem test_subnReg_vf : after (·.getV 0xF) (((run 0x8F17).setV 0xF 0x05).setV 1 0x03) = some 0x00 := by decide

/-- A28. -/
theorem test_shl : after (fun t => (t.getV 4, t.getV 0xF)) ((run 0x840E).setV 4 0x81) = some (0x02, 0x01) := by decide

/-- A32. -/
theorem test_shl_vf : after (·.getV 0xF) ((run 0x8F0E).setV 0xF 0x81) = some 0x02 := by decide

/-- A34. -/
theorem test_rnd : after (·.getV 3) (withPins { oneStep with rnd := 0xA7 } ((run 0xC30F).setV 3 0xEE)) = some 0x07 := by
  decide

/-! ### Index register and memory -/

/-- M2. -/
theorem test_ldI : after (·.i) (run 0xAFFF) = some 0x0FFF := by decide

/-- M4, M6. -/
theorem test_addI : after (fun t => (t.i, t.getV 0xF)) (((run 0xF21E).setI 0x0FFF).setV 2 0x01) = some (0x1000, 0x00) ∧
    after (·.i) (((run 0xF21E).setI 0xFFFF).setV 2 0xFF) = some 0x00FE := by decide

/-- M9. -/
theorem test_ldF : after (·.i) ((run 0xF029).setV 0 0x1A) = some 0x0032 := by decide

/-- M10. -/
theorem test_ldB : after (bytesAt 0x300 3) (((run 0xF333).setV 3 0x9C).setI 0x0300) = some [0x01, 0x05, 0x06] := by decide

/-- M13. -/
theorem test_ldB_fault : after (fun t => (bytesAt 0xFFE 2 t, t.i, latch t)) (((run 0xF333).setV 3 0xFF).setI 0x0FFE) =
    some ([0x02, 0x05], 0x0FFE, .halt, 1, 0x1000) := by decide

/-- M17. -/
theorem test_storeRegs : after (fun t => (bytesAt 0x400 4 t, t.i))
    (((((run 0xF255).setV 0 0x11).setV 1 0x22).setV 2 0x33).setV 3 0x44 |>.setI 0x0400) =
      some ([0x11, 0x22, 0x33, 0x00], 0x0400) := by decide

/-- M20. -/
theorem test_storeRegs_fault : after (fun t => (bytesAt 0xFFE 2 t, latch t))
    ((((run 0xF255).setV 0 0x11).setV 1 0x22).setV 2 0x33 |>.setI 0x0FFE) =
      some ([0x11, 0x22], .halt, 1, 0x1000) := by decide

/-- M24. -/
theorem test_loadRegs : after (fun t => ([0, 1, 2, 3].map t.getV, t.i))
    (withBytes 0x400 [0x11, 0x22, 0x33, 0x44] ((run 0xF265).setI 0x0400)) =
      some ([0x11, 0x22, 0x33, 0x00], 0x0400) := by decide

/-- M25. -/
theorem test_loadRegs_fault : after (fun t => ([0, 1, 2].map t.getV, latch t))
    (withBytes 0xFFE [0x77, 0x88] (((run 0xF265).setI 0x0FFE).setV 2 0x99)) =
      some ([0x77, 0x88, 0x99], .halt, 1, 0x1000) := by decide

/-! ### Framebuffer -/

/-- D19: VF stays, no redraw. -/
theorem test_cls : after (fun t => (pixels [(0, 0), (10, 10), (63, 31)] t, t.getV 0xF, t.redraw))
    (withPixels [(0, 0), (10, 10), (63, 31)] ((run 0x00E0).setV 0xF 0x01)) =
      some ([false, false, false], 0x01, false) := by decide

/-- D3: clipped at the right edge. -/
theorem test_drw : after (fun t => (pixels [(59, 0), (60, 0), (63, 0), (0, 0), (0, 1)] t, t.getV 0xF, t.redraw))
    (withBytes 0x300 [0xFF] (((run 0xD121).setV 1 0x3C).setI 0x0300)) =
      some ([false, true, true, false, false], 0x00, true) := by decide

/-- D12: a fault in the read changes nothing. -/
theorem test_drw_fault : after (fun t => (pixels [(0, 0)] t, t.getV 0xF, t.redraw, latch t))
    (withPixels [(0, 0)] (withBytes 0xFFF [0x80] (((run 0xD122).setV 0xF 0x07).setI 0x0FFF))) =
      some ([true], 0x07, false, .halt, 1, 0x1000) := by decide

/-! ### Timers and keys -/

/-- T5. -/
theorem test_ldVxDT : after (fun t => (t.getV 0xF, t.dt)) ((run 0xFF07).setDt 0x09) = some (0x09, 0x09) := by decide

/-- T2. -/
theorem test_ldDTVx : after (·.dt) ((run 0xF315).setV 3 0x3C) = some 0x3C := by decide

/-- T4. -/
theorem test_ldSTVx : after (·.st) ((run 0xF118).setV 1 0x10) = some 0x10 := by decide

/-- K3, K4. -/
theorem test_skp : after (·.pc) (withKeys 0x0020 ((run 0xE29E).setV 2 0xF5)) = some 0x0204 ∧
    after (·.pc) (withKeys 0xFFDF ((run 0xE29E).setV 2 0x05)) = some 0x0202 := by decide

/-- K5, K6. -/
theorem test_sknp : after (·.pc) (withKeys 0x0000 ((run 0xE2A1).setV 2 0x05)) = some 0x0204 ∧
    after (·.pc) (withKeys 0x0020 ((run 0xE2A1).setV 2 0x05)) = some 0x0202 := by decide

/-- K7. -/
theorem test_ldVxK : after (fun t => (t.getV 3, t.pc)) (withKeys 0x0090 ((run 0xF30A).setV 3 0xEE)) = some (0x04, 0x0202) := by
  decide

/-- K8. -/
theorem test_ldVxK_waits : after (fun t => (t.getV 3, t.pc)) (withKeys 0x0000 ((run 0xF30A).setV 3 0xEE)) =
    some (0xEE, 0x0200) := by decide

/-! ### The clock edge -/

/-- W1, W3, W5. -/
theorem test_tick : after (fun t => (t.dt, t.st, t.pc)) (withPins { Pins.low with tick60 := true } (((run 0).setDt 0x05).setSt 0x05)) =
    some (0x04, 0x05, 0x0200) ∧ after (·.dt) (withPins { Pins.low with tick60 := true } (run 0)) = some 0x00 := by decide

/-- W12: on one edge the tick comes first. -/
theorem test_tick_then_step :
    after (·.dt) (withPins { oneStep with tick60 := true } (((run 0xF315).setV 3 0x3C).setDt 0x02)) = some 0x3C := by decide

/-- W6, F7. -/
theorem test_halt_is_frozen : after (fun t => (t.dt, t.pc, latch t))
    (withPins { oneStep with tick60 := true } (((run 0x6005).setDt 0x05).raise .stackOverflow)) =
      some (0x05, 0x0200, .halt, 5, 0) := by decide

/-- X1. -/
theorem test_rst : after (fun t => (t.sp.val, t.pc, latch t))
    (withPins { Pins.low with rst := true } ((withStack 16 0x0202 (run 0x2300)).raise .stackOverflow)) =
      some (0, 0x0200, .load, 0, 0) := by decide

/-- X2, its first event. -/
theorem test_loader_write : after (fun t => (bytesAt 0x200 1 t, t.runState))
    (withPins { Pins.low with ldWe := true, ldAddr := 0x0200, ldData := 0x12 } State.reset) = some ([0x12], .load) := by decide

/-- X3. -/
theorem test_loader_fault : after latch
    (withPins { Pins.low with ldWe := true, ldAddr := 0x1000, ldData := 0xAA } State.reset) = some (.halt, 1, 0x1000) := by decide

/-- X4. -/
theorem test_load_ignores_strobes : after (fun t => (t.pc, latch t))
    (withPins { oneStep with tick60 := true } State.reset) = some (0x0200, .load, 0, 0) := by decide

/-- X6. -/
theorem test_run_ignores_loader : after (bytesAt 0x300 1)
    (withPins { Pins.low with ldWe := true, ldAddr := 0x0300, ldData := 0xAA } (run 0)) = some [0x00] := by decide

/-- R202. -/
theorem test_start : after latch (withPins { Pins.low with start := true } State.reset) = some (.run, 0, 0) := by decide

/-- X7, X8: glyphs 5 and F, and the byte after the font. -/
theorem test_font : bytesAt 0x019 5 State.reset = [0xF0, 0x80, 0xF0, 0x10, 0xF0] ∧
    bytesAt 0x04B 6 State.reset = [0xF0, 0x80, 0xF0, 0x80, 0x80, 0x00] := by decide

/-! ### Witnesses: states and operands that meet the hypotheses of a statement, at the boundary of each clause -/

/-! #### Encoding and decoding -/

theorem witness_EncodeThenDecode : (Instr.sys 0xFFF).wellFormed = true ∧ (Instr.drw 15 15 15).wellFormed = true := by decide

theorem witness_DecodeThenEncode : decode .nop 0x0FFF = .ok (.sys 0xFFF) ∧ decode .nop 0xFF65 = .ok (.loadRegs 15) := by decide

theorem witness_WordDecodesToTheRowItMatches_sys :
    (rowMatch (.sys 0) = 0x0000 → (0x00EF : Word) ≠ 0x00E0 ∧ (0x00EF : Word) ≠ 0x00EE) ∧
      (0x00EF : Word) &&& rowMask (.sys 0) = rowMatch (.sys 0) := by decide

theorem witness_WordDecodesToTheRowItMatches_cls :
    (rowMatch .cls = 0x0000 → (0x00E0 : Word) ≠ 0x00E0 ∧ (0x00E0 : Word) ≠ 0x00EE) ∧
      (0x00E0 : Word) &&& rowMask .cls = rowMatch .cls := by decide

theorem witness_FamilyZeroFollowsTheSysPolicy_sys : fieldOp 0x00EF = 0x0 ∧ (0x00EF : Word) ≠ 0x00E0 ∧ (0x00EF : Word) ≠ 0x00EE := by decide

theorem witness_FamilyZeroFollowsTheSysPolicy_others : fieldOp 0x1000 ≠ 0x0 := by decide

/-! #### The step -/

theorem witness_StepRunsTheDecodedInstruction :
    (runAt 0x0FFE 0x6A55).steps ∧ (runAt 0x0FFE 0x6A55).pc.toNat + 1 ≤ 0xFFF ∧
      decode .nop (runAt 0x0FFE 0x6A55).wordAtPc = .ok (.ldByte 0xA 0x55) :=
  ⟨⟨rfl, rfl, rfl⟩, by decide, by decide⟩

theorem witness_StepRunsTheDecodedInstruction_with_tick :
    (withPins { oneStep with tick60 := true } (run 0xF307)).steps ∧
      (withPins { oneStep with tick60 := true } (run 0xF307)).fetches (.ldVxDT 3) :=
  ⟨⟨rfl, rfl, rfl⟩, by decide, by decide⟩

theorem witness_FetchReadsTwoBytesOrFaults_ok : (runAt 0x0FFE 0).steps ∧ (runAt 0x0FFE 0).pc.toNat + 1 ≤ 0xFFF :=
  ⟨⟨rfl, rfl, rfl⟩, by decide⟩

theorem witness_FetchReadsTwoBytesOrFaults_half : (runAt 0x0FFF 0).steps ∧ (runAt 0x0FFF 0).pc.toNat = 0xFFF :=
  ⟨⟨rfl, rfl, rfl⟩, by decide⟩

theorem witness_FetchReadsTwoBytesOrFaults_beyond : (runAt 0x1000 0).steps ∧ 0xFFF < (runAt 0x1000 0).pc.toNat :=
  ⟨⟨rfl, rfl, rfl⟩, by decide⟩

theorem witness_InvalidWordHaltsTheMachine :
    (runAt 0x0FFE 0x8128).steps ∧ (runAt 0x0FFE 0x8128).pc.toNat + 1 ≤ 0xFFF ∧
      decode .nop (runAt 0x0FFE 0x8128).wordAtPc = .error (.invalidInstruction (runAt 0x0FFE 0x8128).wordAtPc) :=
  ⟨⟨rfl, rfl, rfl⟩, by decide, by decide⟩

/-- A halted state, the strobes high. -/
def halted : State := withPins { oneStep with tick60 := true, ldWe := true, start := true } ((run 0).raise .stackOverflow)

theorem witness_NoStepAndNoTickInLoadOrHalt_halt : halted.nextPins.rst = false ∧ halted.runState = .halt := by decide

theorem witness_NoStepAndNoTickInLoadOrHalt_load :
    State.reset.nextPins.rst = false ∧ State.reset.runState = .load ∧ State.reset.nextPins.ldWe = false ∧
      State.reset.nextPins.start = false := by decide

/-! #### Reset, loading and the timer engine -/

/-- A halted state at whose next edge `rst` is high. -/
def resetting : State := withPins { Pins.low with rst := true } ((run 0).raise .stackOverflow)

theorem witness_RstResetsFromEveryState : resetting.nextPins.rst = true := by decide

theorem witness_RstResetsFromEveryState_leaves_halt :
    resetting.runState = .halt ∧ ∃ t, step resetting = .next t ∧ t.runState ≠ .halt :=
  ⟨rfl, _, rfl, by decide⟩

/-- A loader write at `a`, with `start` low or high on the same edge. -/
def writing (a : Word) (start : Bool) : State :=
  withPins { Pins.low with ldWe := true, ldAddr := a, ldData := 0xAA, start := start } State.reset

theorem witness_LoaderWritesOneByte : ∀ b, (writing 0x0FFF b).runState = .load ∧ (writing 0x0FFF b).nextPins.rst = false ∧
    (writing 0x0FFF b).nextPins.ldWe = true ∧ (writing 0x0FFF b).nextPins.ldAddr.toNat ≤ 0xFFF ∧
    (writing 0x0FFF b).nextPins.start = b := by decide

theorem witness_LoaderWritesOneByte_beyond : ∀ b, (writing 0x1000 b).runState = .load ∧
    (writing 0x1000 b).nextPins.rst = false ∧ (writing 0x1000 b).nextPins.ldWe = true ∧
    0xFFF < (writing 0x1000 b).nextPins.ldAddr.toNat := by decide

/-- `start` high in LOAD. -/
def starting : State := withPins { Pins.low with start := true } State.reset

theorem witness_StartLeavesLoad : starting.runState = .load ∧ starting.nextPins.rst = false ∧
    starting.nextPins.ldWe = false ∧ starting.nextPins.start = true := by decide

/-- A block of three bytes over the end of memory. -/
def loading : State := { State.reset with script := loaderScript 0xFFE [0x11, 0x22, 0x33] }

theorem witness_LoaderPortIsLoadBlock : loading.runState = .load ∧ 0xFFE ≤ 0xFFFF ∧
    loading.script = loaderScript 0xFFE [0x11, 0x22, 0x33] ++ [] := by decide

/-- A tick without a step. -/
def ticking : State := withPins { Pins.low with tick60 := true } ((run 0).setDt 0x01)

theorem witness_TickDecrementsDTWhileRunning : ticking.runState = .run ∧ ticking.nextPins.rst = false ∧
    ticking.nextPins.step = false ∧ ticking.nextPins.tick60 = true := by decide

theorem witness_TickDecrementsDTWhileRunning_outside : halted.runState ≠ .run ∧ halted.nextPins.rst = false := by decide

theorem witness_TicksCountDown : ticking.runState = .run ∧ ticking.script = tickScript 1 ++ [] := by decide

theorem witness_TickComesBeforeStep_read :
    (withPins { oneStep with tick60 := true } ((run 0xF307).setDt 0x02)).steps ∧
      (withPins { oneStep with tick60 := true } ((run 0xF307).setDt 0x02)).nextPins.tick60 = true ∧
      (withPins { oneStep with tick60 := true } ((run 0xF307).setDt 0x02)).fetches (.ldVxDT 3) :=
  ⟨⟨rfl, rfl, rfl⟩, rfl, by decide, by decide⟩

theorem witness_TickComesBeforeStep_write :
    (withPins { oneStep with tick60 := true } (run 0xF315)).steps ∧
      (withPins { oneStep with tick60 := true } (run 0xF315)).nextPins.tick60 = true ∧
      (withPins { oneStep with tick60 := true } (run 0xF315)).fetches (.ldDTVx 3) :=
  ⟨⟨rfl, rfl, rfl⟩, rfl, by decide, by decide⟩

/-! #### Memory -/

/-- The canonical form: entries rise by address, and writing the reset value takes the entry out. -/
theorem test_memory_canonical :
    Memory.write (Memory.write [] 0x300 0x05) 0x250 0x06 = [(0x250, 0x06), (0x300, 0x05)] ∧
      Memory.write [(0x250, 0x06), (0x300, 0x05)] 0x300 0x00 = [(0x250, 0x06)] ∧
      Memory.write [(0x001, 0x06)] 0x001 0x90 = [] := by decide

theorem witness_MemoryRoundTripAndBounds : State.reset.memRead 0xFFF = .ok 0x00 ∧
    State.reset.memRead 0x1000 = .error (.segmentationFault 0x1000) := by decide

theorem witness_WordReadIsBigEndian : State.reset.memReadWord 0xFFE = .ok 0x0000 ∧
    State.reset.memReadWord 0xFFF = .error (.segmentationFault 0x1000) ∧
    State.reset.memReadWord 0x1000 = .error (.segmentationFault 0x1000) := by decide

theorem witness_FetchSeesStores : ∃ t u, (runAt 0x0FFE 0).memWrite (runAt 0x0FFE 0).pc.toNat 0x62 = .ok t ∧
    t.memWrite ((runAt 0x0FFE 0).pc.toNat + 1) 0x77 = .ok u := ⟨_, _, rfl, rfl⟩

/-! #### ALU and register instructions -/

/-- ADD, SUB, SUBN, SHR and SHL: a register that is not VF, and, in the tests above, VF itself. -/
theorem witness_flag_clauses : (0xE : Reg) ≠ regF := by decide

theorem witness_RndMasksTheRandomByte : (run 0xC30F).steps ∧ (run 0xC30F).fetches (.rnd 3 0x0F) :=
  ⟨⟨rfl, rfl, rfl⟩, by decide, by decide⟩

/-! #### Index register and memory instructions -/

/-- BCD: the last place where three digits fit, the first two where they do not, and a place where none does. -/
theorem witness_BcdWritesThreeDigits :
    (State.reset.setI 0x0FFD).i.toNat + 2 ≤ 0xFFF ∧
    (0xFFF < (State.reset.setI 0x0FFE).i.toNat + 2 ∧ (State.reset.setI 0x0FFE).i.toNat + 1 ≤ 0xFFF) ∧
    (0xFFF < (State.reset.setI 0x0FFF).i.toNat + 2 ∧ (State.reset.setI 0x0FFF).i.toNat ≤ 0xFFF) ∧
    0xFFF < (State.reset.setI 0x1000).i.toNat := by decide

/-- LD [I] and LD Vx, [I]: the last place where V0..V2 fit, the first where they do not, and a place where none does. -/
theorem witness_StoreRegs_and_LoadRegs :
    (State.reset.setI 0x0FFD).i.toNat + (2 : Reg).val ≤ 0xFFF ∧
    (0xFFF < (State.reset.setI 0x0FFE).i.toNat + (2 : Reg).val ∧
      (State.reset.setI 0x0FFE).i.toNat + (1 : Reg).val ≤ 0xFFF ∧ (1 : Reg) ≤ 2) ∧
    0xFFF < (State.reset.setI 0x1000).i.toNat + (0 : Reg).val := by decide

theorem witness_StoreThenLoadRestores :
    (State.reset.setI 0x0FFD).i.toNat + (2 : Reg).val ≤ 0xFFF ∧
    ∃ t u, exec (.storeRegs 2) (State.reset.setI 0x0FFD) = .next t ∧
      exec (.loadRegs 2) (t.setV 1 0x55) = .next u ∧ (t.setV 1 0x55).i = t.i ∧ (t.setV 1 0x55).mem = t.mem :=
  ⟨by decide, _, _, rfl, rfl, rfl, rfl⟩

/-! #### Framebuffer instructions -/

theorem witness_DrawXorsTheSpriteOrFaults :
    ((0 : Fin 16).val = 0 ∨ (State.reset.setI 0x2000).i.toNat + ((0 : Fin 16).val - 1) ≤ 0xFFF) ∧
    ((15 : Fin 16).val = 0 ∨ (State.reset.setI 0x0FF1).i.toNat + ((15 : Fin 16).val - 1) ≤ 0xFFF) := by decide

/-- One pixel on under the glyph 0 at the origin: a collision. -/
theorem witness_DrawXorsTheSpriteOrFaults_collision :
    Framebuffer.get (withPixels [(0, 0)] State.reset).fb 0 0 = true ∧
      spriteBit 0 0 ((withPixels [(0, 0)] State.reset).spriteAt 1) 0 0 = true := by decide

/-- No pixel on: no collision. -/
theorem witness_DrawXorsTheSpriteOrFaults_no_collision :
    ∀ (px : Fin 64) (py : Fin 32), Framebuffer.get State.reset.fb px py = true →
      spriteBit 0 0 (State.reset.spriteAt 1) px py = false := by
  intro px py h
  rw [show State.reset.fb = Framebuffer.blank from rfl, Framebuffer.get_blank] at h
  cases h

theorem witness_DrawXorsTheSpriteOrFaults_fault :
    (2 : Fin 16).val ≠ 0 ∧ 0xFFF < (State.reset.setI 0x0FFF).i.toNat + ((2 : Fin 16).val - 1) ∧
      0xFFF < (State.reset.setI 0x1000).i.toNat + ((1 : Fin 16).val - 1) := by decide

/-- Glyph 0's first row twice at the origin. -/
theorem witness_DrawTwiceRestores : (0 : Reg) ≠ regF ∧ State.reset.i.toNat + ((1 : Fin 16).val - 1) ≤ 0xFFF ∧
    ∃ t u, exec (.drw 0 0 1) State.reset = .next t ∧ exec (.drw 0 0 1) t = .next u ∧
      Framebuffer.get State.reset.fb 0 0 = false ∧ Framebuffer.get t.fb 0 0 = true :=
  ⟨by decide, by decide, _, _, rfl, rfl, by decide, by decide⟩

/-! #### Control transfer -/

/-- JP: the post-fetch PC is 0x0202, so 0x200 is the instruction's own address and 0x202 is not. -/
theorem witness_JumpOrInfiniteLoop :
    BitVec.zeroExtend 16 (0x202 : Addr12) ≠ (State.reset.setPc 0x0202).pc - 2 ∧
      BitVec.zeroExtend 16 (0x200 : Addr12) = (State.reset.setPc 0x0202).pc - 2 := by decide

theorem witness_CallPushesThePostFetchPc :
    (withStack 15 0 State.reset).sp.val < 16 ∧ (withStack 16 0 State.reset).sp.val = 16 := by decide

theorem witness_RetPopsIntoPc :
    (withStack 16 0 State.reset).sp.val = (15 : Fin 16).val + 1 ∧ (withStack 1 0 State.reset).sp.val = (0 : Fin 16).val + 1 ∧
      State.reset.sp.val = 0 := by decide

theorem witness_NestedCallsReturnInOrder :
    State.reset.sp.val + (List.replicate 16 (0x300 : Addr12)).length ≤ 16 ∧
      (withStack 15 0 State.reset).sp.val + [(0x300 : Addr12)].length ≤ 16 := by decide

/-! #### Timer and key instructions -/

theorem witness_KeyWaitRepeatsOrCompletes_none : State.reset.keysIn = 0x0000 := by decide

/-- Key F alone. -/
theorem witness_KeyWaitRepeatsOrCompletes_last : ({ withKeys 0x8000 State.reset with pins := { Pins.low with keys := 0x8000 } } : State).keysIn =
      0x8000 ∧ (0x8000 : Word).getLsbD (15 : Fin 16).val = true ∧
    ∀ j : Fin 16, j < 15 → (0x8000 : Word).getLsbD j.val = false := by decide

theorem witness_KeyWaitRepeatsOrCompletes_step : (withKeys 0x0000 (run 0xF30A)).steps ∧ (withKeys 0x0000 (run 0xF30A)).fetches (.ldVxK 3) ∧
    (withKeys 0x0000 (run 0xF30A)).atStep.keysIn = 0x0000 :=
  ⟨⟨rfl, rfl, rfl⟩, ⟨by decide, by decide⟩, by decide⟩

/-! #### Whole-machine rules -/

/-- LD V2, [I] writes V2 and not V3. -/
theorem witness_RegistersWrittenAreTheTable :
    (∃ t, exec (.loadRegs 2) State.reset = .next t) ∧ writesReg (.loadRegs 2) 3 = false ∧ writesReg (.loadRegs 2) 2 = true :=
  ⟨⟨_, rfl⟩, by decide, by decide⟩

theorem witness_ScreenWrittenByClsAndDrw :
    (∃ t, exec (.ldB 0) State.reset = .next t) ∧ (∀ x y n, Instr.ldB 0 ≠ .drw x y n) ∧ Instr.ldB 0 ≠ .cls :=
  ⟨⟨_, rfl⟩, by simp, by decide⟩

theorem witness_OwnersOfTheRestOfTheState :
    (∃ t, exec .cls State.reset = .next t) ∧ (∀ x, Instr.cls ≠ .ldB x ∧ Instr.cls ≠ .storeRegs x) ∧
      (∀ nnn, Instr.cls ≠ .call nnn) ∧ (∀ nnn x, Instr.cls ≠ .ldI nnn ∧ Instr.cls ≠ .addI x ∧ Instr.cls ≠ .ldF x) ∧
      (∀ x, Instr.cls ≠ .ldDTVx x) ∧ (∀ x, Instr.cls ≠ .ldSTVx x) ∧ writesPc .cls = false ∧ raisesCode .cls = 0 := by
  refine ⟨⟨_, rfl⟩, ?_, ?_, ?_, ?_, ?_, ?_, ?_⟩ <;> simp [writesPc, raisesCode]

/-- RET on the empty stack raises its kind. -/
theorem witness_ExecRaisesOnlyItsKind : ∃ t, exec .ret State.reset = .next t ∧ t.faultCode = raisesCode .ret :=
  ⟨_, rfl, by decide⟩

/-- A tick edge without a step, the word at PC LD DT, V3: no step, so DT may not rise. -/
theorem witness_DelayTimerNeverRises :
    (∃ t, step (withPins { Pins.low with tick60 := true } ((run 0xF315).setDt 0x01)) = .next t ∧ t.dt = 0x00) ∧
      ∀ x, ¬ ((withPins { Pins.low with tick60 := true } ((run 0xF315).setDt 0x01)).steps ∧
        (withPins { Pins.low with tick60 := true } ((run 0xF315).setDt 0x01)).fetches (.ldDTVx x)) :=
  ⟨⟨_, rfl, by decide⟩, fun _ h => absurd h.1.2.2 (by decide)⟩

/-- A DRW that completes; redraw high after it. -/
theorem witness_RedrawPulsesAfterDrwOnly : (run 0xD121).steps ∧ (run 0xD121).fetches (.drw 1 2 1) ∧
    ∃ t, step (run 0xD121) = .next t ∧ t.redraw = true :=
  ⟨⟨rfl, rfl, rfl⟩, ⟨by decide, by decide⟩, _, rfl, by decide⟩

theorem witness_RunEndsNormallyAtASelfJumpOnly : (run 0x1200).runState = .run ∧
    ∃ t, step (run 0x1200) = .next t ∧ t.runState = .halt ∧ t.faultCode = 6 := ⟨rfl, _, rfl, by decide, by decide⟩

theorem witness_LoaderPinsIgnoredOutsideLoad :
    (withPins oneStep (run 0x6005)).runState ≠ .load ∧ oneStep.rst = false ∧
      (withPins oneStep (run 0x6005)).script = oneStep :: [] := by decide

/-! #### Fairness -/

/-- A machine parked in JP V0 to itself: RUN, the word B200 at PC = 0200, V0 = 00, the script used up. -/
def Parked (s : State) : Prop :=
  s.runState = .run ∧ s.mem = (run 0xB200).mem ∧ s.pc = 0x0200 ∧ s.getV 0 = 0x00 ∧ s.config = .default ∧ s.script = []

theorem parked_decodes (s : State) (h : Parked s) : decode s.config.sysPolicy s.wordAtPc = .ok (.jpV0 0x200) := by
  obtain ⟨-, hm, hp, -, hc, -⟩ := h
  unfold State.wordAtPc
  rw [hm, hp, hc]
  decide

theorem parked_stays (s t : State) (h : Parked s) (hst : step s = .next t) : Parked t := by
  have hd := parked_decodes s h
  obtain ⟨hr, hm, hp, hv, hc, hs⟩ := h
  have hscript : s.atStep.script = [] := by unfold State.atStep State.tick; split <;> (try split) <;> simp [hs]
  have hat : Parked s.atStep := ⟨by simpa using hr, by simpa using hm, by simpa using hp, by simpa using hv, by simpa using hc, hscript⟩
  have hpc : s.pc.toNat = 0x200 := by rw [hp]; rfl
  rcases step_cases s t hst with ⟨h0, -⟩ | ⟨-, h1, -⟩ | ⟨-, h1, -⟩ | ⟨-, -, -, rfl⟩ | ⟨-, h1, -⟩ | ⟨-, h1, -⟩ | ⟨-, -, ⟨e, he⟩, -⟩ |
    ⟨-, i, hf, hx⟩
  · simp [State.nextPins, hs, freePins, Pins.low] at h0
  · rw [hr] at h1; cases h1
  · rw [hr] at h1; cases h1
  · exact hat
  · omega
  · omega
  · rw [hd] at he; cases he
  · have hi : i = .jpV0 0x200 := by have := hd.symm.trans hf.2; injection this with this; exact this.symm
    subst hi
    simp only [exec, execJpV0, Host.Outcome.next.injEq] at hx
    subst hx
    refine ⟨by simpa using hr, by simpa using hm, ?_, by simpa [State.getV] using hv, by simpa using hc, by simpa using hscript⟩
    have h0 : (s.atStep.setPc (s.pc + 2)).getV 0 = 0x00 := by simpa [State.getV] using hv
    simp only [State.setPc_pc]
    rw [h0]
    decide

/-- The parked machine with DT = FF and the script used up: it never leaves RUN and never writes DT. -/
def parked : State := { run 0xB200 with script := [], dt := 0xFF }

theorem witness_TicksCountDown_fair : ∀ n t, parked.reaches n t →
    t.runState = .run ∧ ∀ x, ¬ (t.steps ∧ t.fetches (.ldDTVx x)) := by
  have hp : ∀ n (s t : State), Parked s → s.reaches n t → Parked t := by
    intro n
    induction n with
    | zero => intro s t h hr; rw [State.reaches_zero] at hr; exact hr ▸ h
    | succ n ih =>
      intro s t h hr
      obtain ⟨u, hu, hut⟩ := (State.reaches_succ s t n).mp hr
      exact ih u t (parked_stays s u h hu) hut
  intro n t hr
  have h := hp n parked t ⟨rfl, rfl, rfl, rfl, rfl, rfl⟩ hr
  refine ⟨h.1, fun x hx => ?_⟩
  have := (parked_decodes t h).symm.trans hx.2.2
  cases this

/-! #### Invariants -/

theorem witness_StepKeepsInv : State.reset.Inv ∧ ∃ t, step State.reset = .next t :=
  ⟨⟨by decide, ⟨by decide, by decide, by decide, by decide⟩, by decide⟩, _, rfl⟩

/-- The boundary of the bound: PC 0x10FE, a return address 0x1000. -/
theorem witness_StepKeepsPcInv : (withStack 1 0x1000 (runAt 0x10FE 0)).PcInv ∧ ∃ t, step (runAt 0x10FE 0) = .next t := by
  refine ⟨⟨by decide, fun k _ => ?_⟩, _, rfl⟩
  simp [withStack]

end Sys2Proof.Tests
end

/-! PROOFS. The state after reset (10_state.md R25): memory through `resetByte`, the rest field by field. -/

namespace Sys2Proof.Machine

/-- The framebuffer of R25 is the one `CLS` leaves. -/
@[simp] theorem State.reset_fb : State.reset.fb = Framebuffer.blank := rfl

/-- After reset no byte differs from its reset contents (log 9). -/
@[simp] theorem State.read_reset_mem : Memory.read State.reset.mem = resetByte := funext Memory.read_nil

@[simp] theorem length_font : font.length = 80 := rfl

/-- The first 80 addresses hold the font, in order (R47, R48). -/
theorem map_resetByte_range_font : (List.range 80).map resetByte = font := by
  apply List.ext_getElem
  · simp
  · intro a ha hf
    simp [resetByte, List.getElem?_eq_getElem hf]

/-- From the end of the font on, memory is zero (R25). -/
theorem resetByte_above_font {a : Nat} (h : 0x050 ≤ a) : resetByte a = 0x00 := by
  have hlen : font.length ≤ a := by simpa using h
  simp [resetByte, List.getElem?_eq_none hlen]

/-- Settles O12: the registers by their laws, memory through `resetByte`, every other piece by its value in `State.reset`. -/
theorem resetLeavesTheTable : Obligations.ResetLeavesTheTable := by
  unfold Obligations.ResetLeavesTheTable
  have hstack : ∀ k : Fin 16, State.reset.stack[k] = 0x0000 := fun k => by simp [State.reset]
  have hfb : ∀ x y, Framebuffer.get State.reset.fb x y = false := fun x y => by simp
  have hfont : (List.range 80).map (Memory.read State.reset.mem) = font := by
    rw [State.read_reset_mem, map_resetByte_range_font]
  have hzero : ∀ a, 0x050 ≤ a → Memory.read State.reset.mem a = 0x00 := fun a ha => by
    rw [State.read_reset_mem, resetByte_above_font ha]
  exact ⟨State.getV_reset, rfl, rfl, rfl, hstack, rfl, rfl, hfb, hfont, hzero, rfl, rfl, rfl⟩

end Sys2Proof.Machine

/-! PROOFS. Memory (20_memory.md R41 to R44): the byte access at and above the bound, and the two-byte read. -/

namespace Sys2Proof.Machine

/-- Replacing the memory changes only named pieces when every byte not named still reads as before. -/
theorem ChangesOnly.of_mem {named : Part → Prop} {s : State} {m : Memory}
    (h : ∀ a, ¬ named (.byte a) → Memory.read m a = Memory.read s.mem a) :
    ChangesOnly named s { s with mem := m } := by
  intro p hp
  cases p with
  | byte a => exact h a hp
  | callStack => exact ⟨rfl, rfl⟩
  | control => exact ⟨rfl, rfl, rfl⟩
  | platform => exact ⟨rfl, rfl, rfl, rfl⟩
  | _ => rfl

/-- A byte write changes the byte at its address and nothing else (R43). -/
theorem ChangesOnly.write (s : State) (a : Nat) (b : Byte) :
    ChangesOnly (fun p => p = .byte a) s { s with mem := Memory.write s.mem a b } :=
  .of_mem fun _ hne => Memory.read_write_other _ _ _ _ fun h => hne (congrArg Part.byte h)

/-- A byte written at a valid address reads back (R42, R43). -/
theorem State.memRead_write_same (s : State) (b : Byte) {a : Nat} (h : a ≤ 0xFFF) :
    ({ s with mem := Memory.write s.mem a b } : State).memRead a = .ok b := by
  rw [State.memRead_valid _ a h, Memory.read_write_same]

/-- Settles O20: the access laws on each side of the bound, the round trip, and the frame of the write. -/
theorem memoryRoundTripAndBounds : Obligations.MemoryRoundTripAndBounds := by
  unfold Obligations.MemoryRoundTripAndBounds
  intro s a b
  constructor
  · intro h
    exact ⟨State.memRead_valid s a h, _, State.memWrite_valid s a b h, State.memRead_write_same s b h,
      ChangesOnly.write s a b⟩
  · intro h
    exact ⟨State.memRead_invalid s a h, State.memWrite_invalid s a b h⟩

/-- Settles O21: the three branches of `State.memReadWord_eq`, the word's value by `toNat_wordOfBytes`. -/
theorem wordReadIsBigEndian : Obligations.WordReadIsBigEndian := by
  unfold Obligations.WordReadIsBigEndian
  intro s a
  rw [State.memReadWord_eq]
  refine ⟨fun h => ?_, fun h => ?_, fun h => ?_⟩
  · exact ⟨_, if_pos h, toNat_wordOfBytes _ _⟩
  · rw [if_neg (by omega), if_pos h]
  · rw [if_neg (by omega), if_neg (by omega)]

end Sys2Proof.Machine

/-! PROOFS. Family 0x0 and the policy (30_encoding.md R66, R69): what `decode` answers in the family, and that no other family
asks for the policy. -/

namespace Sys2Proof

/-- R69: in family 0x0 the whole word decides. -/
theorem decode_of_fieldOp_zero (p : SysPolicy) {w : Word} (h : fieldOp w = 0x0) : decode p w = decodeFamily0 p w := by
  simp [decode, h]

/-- R66: outside family 0x0 the policy is not asked. -/
theorem decode_policy_irrelevant (p q : SysPolicy) {w : Word} (h : fieldOp w ≠ 0x0) : decode p w = decode q w := by
  have hop : (fieldOp w).toNat ≠ 0 := fun h0 => h (BitVec.eq_of_toNat_eq h0)
  unfold decode
  split
  case h_1 h0 => exact absurd h0 hop
  all_goals rfl

@[simp] theorem decodeFamily0_cls (p : SysPolicy) : decodeFamily0 p 0x00E0 = .ok .cls := rfl

@[simp] theorem decodeFamily0_ret (p : SysPolicy) : decodeFamily0 p 0x00EE = .ok .ret := rfl

/-- R69: a word of family 0x0 that is neither CLS nor RET is SYS under the policy `nop`. -/
theorem decodeFamily0_nop {w : Word} (hcls : w ≠ 0x00E0) (hret : w ≠ 0x00EE) :
    decodeFamily0 .nop w = .ok (.sys (fieldNnn w)) :=
  (if_neg hcls).trans (if_neg hret)

/-- R69: a word of family 0x0 that is neither CLS nor RET is refused under the policy `invalid`. -/
theorem decodeFamily0_invalid {w : Word} (hcls : w ≠ 0x00E0) (hret : w ≠ 0x00EE) :
    decodeFamily0 .invalid w = .error (.invalidInstruction w) :=
  (if_neg hcls).trans (if_neg hret)

end Sys2Proof

namespace Sys2Proof.Machine

/-- SYS is a no-operation (R108). -/
@[simp] theorem exec_sys (nnn : Addr12) (s : State) : exec (.sys nnn) s = .next s := rfl

/-- Settles O5: family 0x0 by the three answers of `decodeFamily0`, the other families by `decode_policy_irrelevant`. -/
theorem familyZeroFollowsTheSysPolicy : Obligations.FamilyZeroFollowsTheSysPolicy := by
  unfold Obligations.FamilyZeroFollowsTheSysPolicy
  refine ⟨rfl, fun p => ⟨?cls, ?ret⟩, fun w h0 hcls hret => ⟨?nop, ?invalid⟩,
    fun _ h => decode_policy_irrelevant .invalid .nop h, exec_sys⟩
  case cls => rw [decode_of_fieldOp_zero p (by decide), decodeFamily0_cls]
  case ret => rw [decode_of_fieldOp_zero p (by decide), decodeFamily0_ret]
  case nop => rw [decode_of_fieldOp_zero .nop h0, decodeFamily0_nop hcls hret]
  case invalid => rw [decode_of_fieldOp_zero .invalid h0, decodeFamily0_invalid hcls hret]

end Sys2Proof.Machine

/-! PROOFS. Frames: how they compose, and those of fault entry (60_exceptions.md R180) and of a write of PC (R13). -/

namespace Sys2Proof.Machine

theorem Part.same.trans {p : Part} {s t u : State} (hst : p.same s t) (htu : p.same t u) : p.same s u := by
  cases p with
  | callStack => exact ⟨htu.1.trans hst.1, htu.2.trans hst.2⟩
  | control =>
    obtain ⟨hrun, hcode, hinfo⟩ := hst
    obtain ⟨hrun', hcode', hinfo'⟩ := htu
    exact ⟨hrun'.trans hrun, hcode'.trans hcode, hinfo'.trans hinfo⟩
  | platform =>
    obtain ⟨hconfig, hpins, hscript, hcycle⟩ := hst
    obtain ⟨hconfig', hpins', hscript', hcycle'⟩ := htu
    exact ⟨hconfig'.trans hconfig, hpins'.trans hpins, hscript'.trans hscript, hcycle'.trans hcycle⟩
  | _ => exact Eq.trans htu hst

theorem ChangesOnly.trans {named : Part → Prop} {s t u : State} (hst : ChangesOnly named s t)
    (htu : ChangesOnly named t u) : ChangesOnly named s u :=
  fun p hp => (hst p hp).trans (htu p hp)

/-- A frame may name more pieces than it has to. -/
theorem ChangesOnly.mono {named named' : Part → Prop} {s t : State} (h : ∀ p, named p → named' p)
    (hst : ChangesOnly named s t) : ChangesOnly named' s t :=
  fun p hp => hst p fun hn => hp (h p hn)

/-- A write of PC changes PC alone. -/
theorem ChangesOnly.setPc (s : State) (a : Word) : ChangesOnly (fun p => p = .pc) s (s.setPc a) := by
  intro p hp
  cases p with
  | pc => exact absurd rfl hp
  | callStack => exact ⟨rfl, rfl⟩
  | control => exact ⟨rfl, rfl, rfl⟩
  | platform => exact ⟨rfl, rfl, rfl, rfl⟩
  | _ => rfl

/-- R180: fault entry changes RUN_STATE and the fault latch alone. -/
theorem ChangesOnly.raise (s : State) (f : FaultKind) : ChangesOnly Part.isControl s (s.raise f) := by
  intro p hp
  cases p with
  | control => exact absurd rfl hp
  | callStack => exact ⟨rfl, rfl⟩
  | platform => exact ⟨rfl, rfl, rfl, rfl⟩
  | _ => rfl

/-- R180: fault entry halts the machine with the fault latched. -/
theorem State.haltedBy_raise (s : State) (f : FaultKind) : (s.raise f).haltedBy f := ⟨rfl, rfl, rfl⟩

end Sys2Proof.Machine

/-! PROOFS. Fetch and decode (40_fetch_decode.md R80 to R83): the engine's step on a clock edge, and its two ways to fault
before Execute. -/

namespace Sys2Proof.Machine

/-- The tick of the same edge does not touch the word at PC. -/
@[simp] theorem State.wordAtPc_atStep (s : State) : s.atStep.wordAtPc = s.wordAtPc := by
  simp [State.wordAtPc]

/-- The tick of the same edge does not touch the fetch. -/
@[simp] theorem State.fetch_atStep (s : State) : s.atStep.fetch = s.fetch := by
  simp [State.fetch_eq]

/-- R86: an edge that takes a step runs the engine on the state after the tick. -/
theorem step_of_steps {s : State} (h : s.steps) : step s = engineStep s.atStep := by
  obtain ⟨hrun, hrst, hstep⟩ := h
  simp [step_eq, hrun, hrst, hstep]

/-- R81: a fetch that faults halts the machine, with PC and everything else unchanged. -/
theorem step_halts_of_fetch_error {s : State} {f : FaultKind} (h : s.steps) (hf : s.fetch = .error f) :
    ∃ t, step s = .next t ∧ t.haltedBy f ∧ ChangesOnly Part.isControl s.atStep t := by
  refine ⟨s.atStep.raise f, ?_, State.haltedBy_raise _ f, ChangesOnly.raise _ f⟩
  rw [step_of_steps h, engineStep_eq, State.fetch_atStep, hf]

/-- R83: a fetched word that does not decode halts the machine after the advance of PC. -/
theorem step_of_decode_error {s : State} {e : DecodeError} (h : s.steps) (hpc : s.pc.toNat + 1 ≤ 0xFFF)
    (hd : decode s.config.sysPolicy s.wordAtPc = .error e) :
    step s = .next ((s.atStep.setPc (s.pc + 2)).raise (.invalidInstruction s.wordAtPc)) := by
  have hf : s.fetch = .ok s.wordAtPc := by rw [State.fetch_eq, if_pos hpc]
  simp [step_of_steps h, engineStep_eq, hf, hd]

/-- Settles O8: the three ranges of PC are the three answers of `State.fetch_eq`. -/
theorem fetchReadsTwoBytesOrFaults : Obligations.FetchReadsTwoBytesOrFaults := by
  unfold Obligations.FetchReadsTwoBytesOrFaults
  intro s h
  refine ⟨fun hpc => ?word, fun hpc => ?beyond, fun hpc => ?half⟩
  case word => rw [State.fetch_atStep, State.fetch_eq, if_pos hpc, State.wordAtPc]
  case beyond =>
    apply step_halts_of_fetch_error h
    rw [State.fetch_eq, if_neg (by omega), if_neg (by omega)]
  case half =>
    apply step_halts_of_fetch_error h
    rw [State.fetch_eq, if_neg (by omega), if_pos hpc]

/-- Settles O9: the step is `step_of_decode_error`, its frame that of the write of PC followed by that of fault entry. -/
theorem invalidWordHaltsTheMachine : Obligations.InvalidWordHaltsTheMachine := by
  unfold Obligations.InvalidWordHaltsTheMachine
  intro s h hpc hd
  have hadvance := ChangesOnly.setPc s.atStep (s.pc + 2)
  have hraise := ChangesOnly.raise (s.atStep.setPc (s.pc + 2)) (.invalidInstruction s.wordAtPc)
  exact ⟨_, step_of_decode_error h hpc hd, State.haltedBy_raise _ _, rfl,
    (hadvance.mono fun _ => .inr).trans (hraise.mono fun _ => .inl)⟩

end Sys2Proof.Machine

/-! PROOFS. The words of the opcode map's patterns (30_encoding.md R62, R65): each is the encoder's word, and decoding gives the
instruction back under either policy. -/

namespace Sys2Proof.Machine

theorem wordNnn_eq_encodeNnn (op : Nibble) (nnn : Addr12) : wordNnn (op.toNat * 4096) nnn = encodeNnn op nnn := by
  apply BitVec.eq_of_toNat_eq
  rw [toNat_encodeNnn, wordNnn, BitVec.toNat_ofNat]; omega

theorem wordXkk_eq_encodeXkk (op : Nibble) (x : Reg) (kk : Byte) :
    wordXkk (op.toNat * 4096) x kk = encodeXkk op x kk := by
  apply BitVec.eq_of_toNat_eq
  rw [toNat_encodeXkk, wordXkk, BitVec.toNat_ofNat]; omega

theorem wordXyn_eq_encodeXyn (op : Nibble) (x y : Reg) (n : Fin 16) :
    wordXyn (op.toNat * 4096) x y n = encodeXyn op x y (nibbleOfReg n) := by
  apply BitVec.eq_of_toNat_eq
  rw [toNat_encodeXyn, toNat_nibbleOfReg, wordXyn, BitVec.toNat_ofNat]; omega

/-- R64, R69: the encoder's word of any instruction but SYS means that instruction, whatever SYS_POLICY. -/
theorem decodesTo_encode {i : Instr} (hsys : ∀ nnn, i ≠ .sys nnn) : decodesTo (encode i) i := by
  intro p
  cases i with
  | sys nnn => exact absurd rfl (hsys nnn)
  | cls => rfl
  | ret => rfl
  | ldReg | orReg | andReg | xorReg | addReg | subReg | shr | subnReg | shl => simp [encode, decode, decodeFamily8]
  | skp | sknp => simp [encode, decode, decodeFamilyE]
  | ldVxDT | ldVxK | ldDTVx | ldSTVx | addI | ldF | ldB | storeRegs | loadRegs => simp [encode, decode, decodeFamilyF]
  | _ => simp [encode, decode]

theorem decodesTo_of_eq_encode {w : Word} {i : Instr} (hw : w = encode i) (hsys : ∀ nnn, i ≠ .sys nnn) :
    decodesTo w i :=
  hw ▸ decodesTo_encode hsys

end Sys2Proof.Machine

/-! PROOFS. Control transfer (41_control_flow.md R100 to R107): the jumps, the call stack and the skips. -/

namespace Sys2Proof.Machine

/-! ### Targets and frames -/

@[simp] theorem toNat_zextAddr (nnn : Addr12) : (zextAddr nnn).toNat = nnn.toNat :=
  BitVec.toNat_setWidth_of_le (by decide)

@[simp] theorem toNat_zextByte (b : Byte) : (zextByte b).toNat = b.toNat :=
  BitVec.toNat_setWidth_of_le (by decide)

/-- R103: an address plus a byte fits in the 16 bits of PC, so the sum never wraps. -/
theorem toNat_zextAddr_add_zextByte (nnn : Addr12) (b : Byte) :
    (zextAddr nnn + zextByte b).toNat = nnn.toNat + b.toNat := by
  rw [BitVec.toNat_add, toNat_zextAddr, toNat_zextByte]; omega

/-- Every frame holds of a state that has not changed. -/
theorem ChangesOnly.refl (named : Part → Prop) (s : State) : ChangesOnly named s s :=
  ChangesOnly.of_mem (m := s.mem) fun _ _ => rfl

/-- Replacing STACK and SP changes the call stack alone. -/
theorem ChangesOnly.setCallStack (s : State) (stack : Vector Word 16) (sp : Fin 17) :
    ChangesOnly (fun p => p = .callStack) s { s with stack := stack, sp := sp } := by
  intro p hp
  cases p with
  | callStack => exact absurd rfl hp
  | control => exact ⟨rfl, rfl, rfl⟩
  | platform => exact ⟨rfl, rfl, rfl, rfl⟩
  | _ => rfl

/-- Replacing STACK and SP and then writing PC changes the call stack and PC alone. -/
theorem ChangesOnly.setCallStack_setPc (s : State) (stack : Vector Word 16) (sp : Fin 17) (a : Word) :
    ChangesOnly (fun p => p = .pc ∨ p = .callStack) s (({ s with stack := stack, sp := sp } : State).setPc a) :=
  ((ChangesOnly.setCallStack s stack sp).mono fun _ => .inr).trans ((ChangesOnly.setPc _ a).mono fun _ => .inl)

/-- A skip, taken or not, changes PC alone. -/
theorem ChangesOnly.skipIf (s : State) (c : Bool) : ChangesOnly (fun p => p = .pc) s (s.skipIf c) := by
  cases c with
  | true => exact ChangesOnly.setPc s (s.pc + 2)
  | false => exact ChangesOnly.refl _ s

/-! ### What the instructions answer -/

theorem exec_jp_other {nnn : Addr12} {s : State} (h : zextAddr nnn ≠ s.pc - 2) :
    exec (.jp nnn) s = .next (s.setPc (zextAddr nnn)) :=
  if_neg h

theorem exec_jp_self {nnn : Addr12} {s : State} (h : zextAddr nnn = s.pc - 2) :
    exec (.jp nnn) s = .next (s.raise .infiniteLoop) :=
  if_pos h

theorem exec_call_room (nnn : Addr12) {s : State} (h : s.sp.val < 16) :
    exec (.call nnn) s =
      .next (({ s with stack := s.stack.set s.sp.val s.pc h, sp := ⟨s.sp.val + 1, by omega⟩ } : State).setPc
        (zextAddr nnn)) := by
  rw [exec, execCall, State.push_room s s.pc h]

theorem exec_call_full (nnn : Addr12) {s : State} (h : s.sp.val = 16) :
    exec (.call nnn) s = .next (s.raise .stackOverflow) := by
  rw [exec, execCall, State.push_full s s.pc h]

/-- R102: what is popped from `k + 1` entries is entry `k`. -/
theorem State.pop_of_sp_eq_succ {s : State} {k : Fin 16} (h : s.sp.val = k.val + 1) :
    s.pop = .ok (s.stack[k], { s with sp := k.castSucc }) := by
  have hk : s.sp.val - 1 = k.val := by omega
  simp only [State.pop_entry s (by omega), hk]
  rfl

theorem exec_ret_entry {s : State} {k : Fin 16} (h : s.sp.val = k.val + 1) :
    exec .ret s = .next (({ s with sp := k.castSucc } : State).setPc s.stack[k]) := by
  rw [exec, execRet, State.pop_of_sp_eq_succ h]

theorem exec_ret_empty {s : State} (h : s.sp.val = 0) : exec .ret s = .next (s.raise .stackUnderflow) := by
  rw [exec, execRet, State.pop_empty s h]

/-- R180: an instruction that answers with a fault entry halts the machine and changes nothing else. -/
theorem exec_halts_of_raise {i : Instr} {s : State} {f : FaultKind} (h : exec i s = .next (s.raise f)) :
    ∃ t, exec i s = .next t ∧ t.haltedBy f ∧ ChangesOnly Part.isControl s t :=
  ⟨_, h, State.haltedBy_raise s f, ChangesOnly.raise s f⟩

/-- R104: an instruction that answers with a skip adds 2 to PC or leaves it, and changes nothing else. -/
theorem exec_skips_of_skipIf {i : Instr} {s : State} {c : Bool} (h : exec i s = .next (s.skipIf c)) :
    ∃ t, exec i s = .next t ∧ t.pc = (if c then s.pc + 2 else s.pc) ∧ ChangesOnly (fun p => p = .pc) s t :=
  ⟨_, h, State.skipIf_pc s c, ChangesOnly.skipIf s c⟩

/-! ### The statements -/

/-- Settles O39: `exec_jp_other` and `exec_jp_self`, on the two sides of the test for the instruction's own address. -/
theorem jumpOrInfiniteLoop : Obligations.JumpOrInfiniteLoop := by
  unfold Obligations.JumpOrInfiniteLoop
  intro s nnn
  refine ⟨decodesTo_of_eq_encode (wordNnn_eq_encodeNnn 0x1 nnn) (by simp), fun hne => ?other, fun heq => ?self⟩
  case other => exact ⟨_, exec_jp_other hne, toNat_zextAddr nnn, ChangesOnly.setPc s _⟩
  case self => exact exec_halts_of_raise (exec_jp_self heq)

/-- Settles O40: the write of PC, whose value `toNat_zextAddr_add_zextByte` shows not to wrap. -/
theorem jumpV0AddsWithoutMask : Obligations.JumpV0AddsWithoutMask := by
  unfold Obligations.JumpV0AddsWithoutMask
  intro s nnn
  exact ⟨decodesTo_of_eq_encode (wordNnn_eq_encodeNnn 0xB nnn) (by simp), _, rfl,
    toNat_zextAddr_add_zextByte nnn (s.getV 0), ChangesOnly.setPc s _⟩

/-- Settles O41: `exec_call_room` below the full stack, `exec_call_full` at it. -/
theorem callPushesThePostFetchPc : Obligations.CallPushesThePostFetchPc := by
  unfold Obligations.CallPushesThePostFetchPc
  intro s nnn
  refine ⟨decodesTo_of_eq_encode (wordNnn_eq_encodeNnn 0x2 nnn) (by simp), fun h => ?room, fun h => ?full⟩
  case room =>
    refine ⟨_, exec_call_room nnn h, rfl, toNat_zextAddr nnn, fun k => ?_, ChangesOnly.setCallStack_setPc s _ _ _⟩
    simp [Vector.getElem_set, eq_comm]
  case full => exact exec_halts_of_raise (exec_call_full nnn h)

/-- Settles O42: `exec_ret_entry` above the empty stack, `exec_ret_empty` at it. -/
theorem retPopsIntoPc : Obligations.RetPopsIntoPc := by
  unfold Obligations.RetPopsIntoPc
  intro s
  refine ⟨decodesTo_encode (i := .ret) (by simp), fun k h => ?entry, fun h => ?empty⟩
  case entry => exact ⟨_, exec_ret_entry h, rfl, rfl, rfl, ChangesOnly.setCallStack_setPc s s.stack _ _⟩
  case empty => exact exec_halts_of_raise (exec_ret_empty h)

/-- Settles O44: the four conditions given to `exec_skips_of_skipIf`. -/
theorem skipsOnRegisters : Obligations.SkipsOnRegisters := by
  unfold Obligations.SkipsOnRegisters
  intro s x y kk
  refine ⟨decodesTo_of_eq_encode (wordXkk_eq_encodeXkk 0x3 x kk) (by simp),
    decodesTo_of_eq_encode (wordXkk_eq_encodeXkk 0x4 x kk) (by simp),
    decodesTo_of_eq_encode (wordXyn_eq_encodeXyn 0x5 x y 0) (by simp),
    decodesTo_of_eq_encode (wordXyn_eq_encodeXyn 0x9 x y 0) (by simp), ?seByte, ?sneByte, ?seReg, ?sneReg⟩
  case seByte => simpa using exec_skips_of_skipIf (i := .seByte x kk) (s := s) rfl
  case sneByte => simpa using exec_skips_of_skipIf (i := .sneByte x kk) (s := s) rfl
  case seReg => simpa using exec_skips_of_skipIf (i := .seReg x y) (s := s) rfl
  case sneReg => simpa using exec_skips_of_skipIf (i := .sneReg x y) (s := s) rfl

end Sys2Proof.Machine

/-! PROOFS. ALU and register instructions (42_alu.md R120 to R133): what a register write, alone or with a flag, answers and
leaves unchanged, and the arithmetic of the results. -/

namespace Sys2Proof.Machine

/-! ### Flags and shifted-out bits as numbers -/

theorem toNat_flagByte (c : Bool) : (flagByte c).toNat = c.toNat := by cases c <;> rfl

theorem flagByte_carry (a b : Byte) : flagByte (carry a b) = if 256 ≤ a.toNat + b.toNat then 0x01 else 0x00 := by
  simp [flagByte, carry]

theorem flagByte_noBorrow (a b : Byte) : flagByte (noBorrow a b) = if b.toNat ≤ a.toNat then 0x01 else 0x00 := by
  simp [flagByte, noBorrow]

/-- R123: the bit a right shift loses is the remainder by 2. -/
theorem toNat_flagByte_shiftedOutRight (a : Byte) : (flagByte (shiftedOutRight a)).toNat = a.toNat % 2 := by
  rw [toNat_flagByte, shiftedOutRight, BitVec.getLsbD, Nat.toNat_testBit]; omega

/-- R124: the bit a left shift loses is the quotient by 128. -/
theorem toNat_flagByte_shiftedOutLeft (a : Byte) : (flagByte (shiftedOutLeft a)).toNat = a.toNat / 128 := by
  rw [toNat_flagByte, shiftedOutLeft, BitVec.getLsbD, Nat.toNat_testBit]; omega

/-- R121: the difference modulo 256, written without a negative number. -/
theorem toNat_sub_byte (a b : Byte) : (a - b).toNat = (a.toNat + 256 - b.toNat) % 256 := by
  rw [BitVec.toNat_sub]; omega

theorem toNat_ushiftRight_one (a : Byte) : (a >>> 1).toNat = a.toNat / 2 := by
  rw [BitVec.toNat_ushiftRight, Nat.shiftRight_eq_div_pow]

theorem toNat_shiftLeft_one (a : Byte) : (a <<< 1).toNat = a.toNat * 2 % 256 := by
  rw [BitVec.toNat_shiftLeft, Nat.shiftLeft_eq]

/-! ### Frames -/

/-- A register write changes that register alone. -/
theorem ChangesOnly.setV (s : State) (x : Reg) (b : Byte) : ChangesOnly (fun p => p = .reg x) s (s.setV x b) := by
  intro p hp
  cases p with
  | reg r => exact (State.getV_setV s x r b).trans (if_neg fun h => hp (congrArg Part.reg h))
  | callStack => exact ⟨rfl, rfl⟩
  | control => exact ⟨rfl, rfl, rfl⟩
  | platform => exact ⟨rfl, rfl, rfl, rfl⟩
  | _ => rfl

/-- R133: result and flag, in the arithmetic group's order, change Vx and VF alone. -/
theorem ChangesOnly.setResultThenFlag (s : State) (x : Reg) (b : Byte) (c : Bool) :
    ChangesOnly (fun p => p = .reg x ∨ p = .reg regF) s (s.setResultThenFlag x b c) :=
  ((ChangesOnly.setV s x b).mono fun _ => .inl).trans ((ChangesOnly.setV _ regF _).mono fun _ => .inr)

/-- R133: flag and result, in the shifts' order, change Vx and VF alone. -/
theorem ChangesOnly.setFlagThenResult (s : State) (x : Reg) (b : Byte) (c : Bool) :
    ChangesOnly (fun p => p = .reg x ∨ p = .reg regF) s (s.setFlagThenResult x b c) :=
  ((ChangesOnly.setV s regF _).mono fun _ => .inr).trans ((ChangesOnly.setV _ x b).mono fun _ => .inl)

/-! ### What the three shapes of register instruction answer -/

/-- An instruction that answers with one register write puts the byte there and changes nothing else. -/
theorem exec_writes_of_setV {i : Instr} {s : State} {x : Reg} {b : Byte} (h : exec i s = .next (s.setV x b)) :
    ∃ t, exec i s = .next t ∧ t.getV x = b ∧ ChangesOnly (fun p => p = .reg x) s t :=
  ⟨_, h, by simp, ChangesOnly.setV s x b⟩

/-- R133: where the flag is written last it stands in VF for every `x`, and the result in Vx for `x` other than F. -/
theorem exec_writes_of_setResultThenFlag {i : Instr} {s : State} {x : Reg} {b : Byte} {c : Bool}
    (h : exec i s = .next (s.setResultThenFlag x b c)) :
    ∃ t, exec i s = .next t ∧ (x ≠ regF → t.getV x = b) ∧ t.getV regF = flagByte c ∧
      ChangesOnly (fun p => p = .reg x ∨ p = .reg regF) s t := by
  refine ⟨_, h, fun hx => ?_, ?_, ChangesOnly.setResultThenFlag s x b c⟩
  · rw [State.getV_setResultThenFlag, if_neg hx, if_pos rfl]
  · rw [State.getV_setResultThenFlag, if_pos rfl]

/-- R121, R122: an instruction that answers with a difference and its missing borrow, for either order of the operands. -/
theorem exec_subtracts_of_setResultThenFlag {i : Instr} {s : State} {x : Reg} {a b : Byte}
    (h : exec i s = .next (s.setResultThenFlag x (a - b) (noBorrow a b))) :
    ∃ t, exec i s = .next t ∧ (x ≠ regF → (t.getV x).toNat = (a.toNat + 256 - b.toNat) % 256) ∧
      t.getV regF = (if b.toNat ≤ a.toNat then 0x01 else 0x00) ∧
      ChangesOnly (fun p => p = .reg x ∨ p = .reg regF) s t := by
  obtain ⟨t, ht, hx, hf, hframe⟩ := exec_writes_of_setResultThenFlag h
  exact ⟨t, ht, fun hne => hx hne ▸ toNat_sub_byte a b, hf.trans (flagByte_noBorrow a b), hframe⟩

/-- R133: where the result is written last it stands in Vx for every `x`, and the flag in VF for `x` other than F. -/
theorem exec_writes_of_setFlagThenResult {i : Instr} {s : State} {x : Reg} {b : Byte} {c : Bool}
    (h : exec i s = .next (s.setFlagThenResult x b c)) :
    ∃ t, exec i s = .next t ∧ t.getV x = b ∧ (x ≠ regF → t.getV regF = flagByte c) ∧
      ChangesOnly (fun p => p = .reg x ∨ p = .reg regF) s t := by
  refine ⟨_, h, ?_, fun hx => ?_, ChangesOnly.setFlagThenResult s x b c⟩
  · rw [State.getV_setFlagThenResult, if_pos rfl]
  · rw [State.getV_setFlagThenResult, if_neg hx.symm, if_pos rfl]

/-- R80, R84: an edge that takes a step whose fetch and decode succeed runs the instruction after the advance of PC. -/
theorem step_of_fetches {s : State} {i : Instr} (h : s.steps) (hi : s.fetches i) :
    step s = exec i (s.atStep.setPc (s.pc + 2)) := by
  obtain ⟨hpc, hd⟩ := hi
  have hf : s.fetch = .ok s.wordAtPc := by rw [State.fetch_eq, if_pos hpc]
  simp [step_of_steps h, engineStep_eq, hf, hd]

/-! ### The statements -/

/-- Settles O23: both loads are one register write. -/
theorem loadsAndCopies : Obligations.LoadsAndCopies := by
  unfold Obligations.LoadsAndCopies
  intro s x y kk
  exact ⟨decodesTo_of_eq_encode (wordXkk_eq_encodeXkk 0x6 x kk) (by simp),
    decodesTo_of_eq_encode (wordXyn_eq_encodeXyn 0x8 x y 0) (by simp),
    exec_writes_of_setV rfl, exec_writes_of_setV rfl⟩

/-- Settles O24: the three operations are one register write each. -/
theorem logicLeavesVFAlone : Obligations.LogicLeavesVFAlone := by
  unfold Obligations.LogicLeavesVFAlone
  intro s x y
  exact ⟨decodesTo_of_eq_encode (wordXyn_eq_encodeXyn 0x8 x y 1) (by simp),
    decodesTo_of_eq_encode (wordXyn_eq_encodeXyn 0x8 x y 2) (by simp),
    decodesTo_of_eq_encode (wordXyn_eq_encodeXyn 0x8 x y 3) (by simp),
    exec_writes_of_setV rfl, exec_writes_of_setV rfl, exec_writes_of_setV rfl⟩

/-- Settles O25: one register write, of a byte sum. -/
theorem addImmediateWraps : Obligations.AddImmediateWraps := by
  unfold Obligations.AddImmediateWraps
  intro s x kk
  obtain ⟨t, ht, hx, hframe⟩ := exec_writes_of_setV (i := .addByte x kk) (s := s) rfl
  exact ⟨decodesTo_of_eq_encode (wordXkk_eq_encodeXkk 0x7 x kk) (by simp), t, ht,
    hx ▸ BitVec.toNat_add _ _, hframe⟩

/-- Settles O26: the byte sum and its carry, the flag written last. -/
theorem addSetsCarry : Obligations.AddSetsCarry := by
  unfold Obligations.AddSetsCarry
  intro s x y
  obtain ⟨t, ht, hx, hf, hframe⟩ := exec_writes_of_setResultThenFlag (i := .addReg x y) (s := s) rfl
  exact ⟨decodesTo_of_eq_encode (wordXyn_eq_encodeXyn 0x8 x y 4) (by simp), t, ht,
    fun hne => hx hne ▸ BitVec.toNat_add _ _, hf.trans (flagByte_carry _ _), hframe⟩

/-- Settles O27: the difference `Vx - Vy` and its missing borrow, the flag written last. -/
theorem subSetsNotBorrow : Obligations.SubSetsNotBorrow := by
  unfold Obligations.SubSetsNotBorrow
  intro s x y
  exact ⟨decodesTo_of_eq_encode (wordXyn_eq_encodeXyn 0x8 x y 5) (by simp), exec_subtracts_of_setResultThenFlag rfl⟩

/-- Settles O28: the same of the difference `Vy - Vx`. -/
theorem subnSetsNotBorrow : Obligations.SubnSetsNotBorrow := by
  unfold Obligations.SubnSetsNotBorrow
  intro s x y
  exact ⟨decodesTo_of_eq_encode (wordXyn_eq_encodeXyn 0x8 x y 7) (by simp), exec_subtracts_of_setResultThenFlag rfl⟩

/-- Settles O29: the shifted byte and the bit it loses, the result written last. -/
theorem shiftsMoveOneBit : Obligations.ShiftsMoveOneBit := by
  unfold Obligations.ShiftsMoveOneBit
  intro s x y
  refine ⟨decodesTo_of_eq_encode (wordXyn_eq_encodeXyn 0x8 x y 0x6) (by simp),
    decodesTo_of_eq_encode (wordXyn_eq_encodeXyn 0x8 x y 0xE) (by simp), ?shr, ?shl⟩
  case shr =>
    obtain ⟨t, ht, hx, hf, hframe⟩ := exec_writes_of_setFlagThenResult (i := .shr x y) (s := s) rfl
    exact ⟨t, ht, hx ▸ toNat_ushiftRight_one _, fun hne => hf hne ▸ toNat_flagByte_shiftedOutRight _, hframe⟩
  case shl =>
    obtain ⟨t, ht, hx, hf, hframe⟩ := exec_writes_of_setFlagThenResult (i := .shl x y) (s := s) rfl
    exact ⟨t, ht, hx ▸ toNat_shiftLeft_one _, fun hne => hf hne ▸ toNat_flagByte_shiftedOutLeft _, hframe⟩

/-- Settles O30: one register write; in a step the sampled pins are those of the step's own edge. -/
theorem rndMasksTheRandomByte : Obligations.RndMasksTheRandomByte := by
  unfold Obligations.RndMasksTheRandomByte
  intro s x kk
  refine ⟨decodesTo_of_eq_encode (wordXkk_eq_encodeXkk 0xC x kk) (by simp), exec_writes_of_setV rfl, fun h hi => ?_⟩
  obtain ⟨t, ht, hx, -⟩ := exec_writes_of_setV (i := .rnd x kk) (s := s.atStep.setPc (s.pc + 2)) rfl
  exact ⟨t, (step_of_fetches h hi).trans ht, by simpa using hx⟩

end Sys2Proof.Machine

/-! PROOFS. Index register and memory instructions (43_index_memory.md R140 to R146): the writes of I, and the block
instructions with the part of the block that fits before their fault. -/

namespace Sys2Proof.Machine

/-! ### Frames -/

/-- A write of I changes I alone. -/
theorem ChangesOnly.setI (s : State) (a : Word) : ChangesOnly (fun p => p = .index) s (s.setI a) := by
  intro p hp
  cases p with
  | index => exact absurd rfl hp
  | callStack => exact ⟨rfl, rfl⟩
  | control => exact ⟨rfl, rfl, rfl⟩
  | platform => exact ⟨rfl, rfl, rfl, rfl⟩
  | _ => rfl

/-- Replacing the registers changes only named pieces when every register not named still reads as before. -/
theorem ChangesOnly.of_regs {named : Part → Prop} {s : State} {v : Vector Byte 16}
    (h : ∀ r, ¬ named (.reg r) → ({ s with v := v } : State).getV r = s.getV r) :
    ChangesOnly named s { s with v := v } := by
  intro p hp
  cases p with
  | reg r => exact h r hp
  | callStack => exact ⟨rfl, rfl⟩
  | control => exact ⟨rfl, rfl, rfl⟩
  | platform => exact ⟨rfl, rfl, rfl, rfl⟩
  | _ => rfl

/-- R180: a fault entry after a change adds RUN_STATE and the fault latch to what the change names. -/
theorem ChangesOnly.andRaise {named : Part → Prop} {s t : State} (f : FaultKind) (h : ChangesOnly named s t) :
    ChangesOnly (fun p => p.isControl ∨ named p) s (t.raise f) :=
  (h.mono fun _ => .inr).trans ((ChangesOnly.raise t f).mono fun _ => .inl)

/-! ### Values -/

/-- R142: the glyph of the low nibble lies at five times that nibble. -/
@[simp] theorem toNat_glyphAddr (b : Byte) : (glyphAddr b).toNat = b.toNat % 16 * 5 := by
  have hnibble : (b &&& 0x0F).toNat = b.toNat % 16 := Nat.and_two_pow_sub_one_eq_mod b.toNat 4
  have hfits : b.toNat % 16 * 5 < 2 ^ 16 := by omega
  rw [glyphAddr, BitVec.toNat_mul, toNat_zextByte, hnibble]
  exact Nat.mod_eq_of_lt hfits

/-- R143: hundreds, tens and ones fit in a byte each. -/
theorem map_toNat_bcdDigits (b : Byte) :
    (bcdDigits b).map BitVec.toNat = [b.toNat / 100, b.toNat / 10 % 10, b.toNat % 10] := by
  simp only [bcdDigits, List.map_cons, List.map_nil, BitVec.toNat_ofNat, List.cons.injEq, and_true]
  omega

/-- R146: the first address of a block from `i` upward that is above 0xFFF, for a block that does not fit. -/
theorem ofNat_max_bound (i : Word) :
    BitVec.ofNat 16 (max i.toNat 0x1000) = if i.toNat ≤ 0xFFF then 0x1000 else i := by
  split
  case isTrue h => exact congrArg (BitVec.ofNat 16) (Nat.max_eq_right (by omega))
  case isFalse h => rw [Nat.max_eq_left (by omega), BitVec.ofNat_toNat, BitVec.setWidth_eq]

/-! ### What the block instructions answer -/

section
variable {i : Instr} {s t : State} {last : Nat}
  (h : exec i s = .next (
    if last ≤ 0xFFF then t else t.raise (.segmentationFault (BitVec.ofNat 16 (max s.i.toNat 0x1000)))))
include h

/-- R146: a block instruction whose last address is in range raises nothing. -/
theorem exec_block_of_fits (hlast : last ≤ 0xFFF) : exec i s = .next t := by
  rw [h, if_pos hlast]

/-- R146: a block instruction whose last address is above 0xFFF ends in the fault of the first address that is. -/
theorem exec_block_of_overflows (hlast : 0xFFF < last) :
    exec i s = .next (t.raise (.segmentationFault (if s.i.toNat ≤ 0xFFF then 0x1000 else s.i))) := by
  rw [h, if_neg (by omega), ofNat_max_bound]

end

/-- LD B, Vx: every digit whose address is in range is written; the fault latch changes where three digits do not fit. -/
theorem execLdB_shape (x : Reg) (s : State) :
    ∃ m : Memory,
      (∀ k < 3, s.i.toNat + k ≤ 0xFFF → (Memory.read m (s.i.toNat + k)).toNat =
        [(s.getV x).toNat / 100, (s.getV x).toNat / 10 % 10, (s.getV x).toNat % 10].getD k 0) ∧
      ChangesOnly (fun p => ∃ k < 3, s.i.toNat + k ≤ 0xFFF ∧ p = .byte (s.i.toNat + k)) s { s with mem := m } ∧
      execLdB x s = .next (
        if s.i.toNat + 2 ≤ 0xFFF then { s with mem := m }
        else ({ s with mem := m } : State).raise (.segmentationFault (BitVec.ofNat 16 (max s.i.toNat 0x1000)))) := by
  obtain ⟨m, -, hread, hstore⟩ := State.storeBytes_shape (bcdDigits (s.getV x)) s s.i.toNat
  have hlen : (bcdDigits (s.getV x)).length = 3 := rfl
  rw [hlen] at hread hstore
  refine ⟨m, fun k hk hv => ?digit, .of_mem fun a ha => ?other, ?answer⟩
  case digit =>
    rw [hread, if_pos (by omega), Nat.add_sub_cancel_left, ← map_toNat_bcdDigits]
    exact (List.getD_map (n := k) _ 0 BitVec.toNat).symm
  case other =>
    rw [hread, if_neg]
    rintro ⟨hlo, hhi, hv⟩
    exact ha ⟨a - s.i.toNat, by omega, by omega, congrArg Part.byte (by omega)⟩
  case answer =>
    rw [execLdB, State.base, hstore]
    congr 2
    exact propext (by omega)

/-! ### The statements -/

/-- Settles O31: three writes of I, their values by the lemmas on zero-extended addresses, bytes and glyphs. -/
theorem indexRegisterWrites : Obligations.IndexRegisterWrites := by
  unfold Obligations.IndexRegisterWrites
  intro s x nnn
  refine ⟨decodesTo_of_eq_encode (wordNnn_eq_encodeNnn 0xA nnn) (by simp),
    decodesTo_of_eq_encode (wordXkk_eq_encodeXkk 0xF x 0x1E) (by simp),
    decodesTo_of_eq_encode (wordXkk_eq_encodeXkk 0xF x 0x29) (by simp), ?ldI, ?addI, ?ldF⟩
  case ldI => exact ⟨_, rfl, toNat_zextAddr nnn, ChangesOnly.setI s _⟩
  case addI =>
    refine ⟨_, rfl, ?_, ChangesOnly.setI s _⟩
    rw [State.setI_i, BitVec.toNat_add, toNat_zextByte]
  case ldF => exact ⟨_, rfl, toNat_glyphAddr _, ChangesOnly.setI s _⟩

/-- Settles O32: `execLdB_shape`, on the two sides of the last digit's address being in range. -/
theorem bcdWritesThreeDigits : Obligations.BcdWritesThreeDigits := by
  unfold Obligations.BcdWritesThreeDigits
  intro s x
  obtain ⟨m, hdigit, hframe, hexec⟩ := execLdB_shape x s
  refine ⟨decodesTo_of_eq_encode (wordXkk_eq_encodeXkk 0xF x 0x33) (by simp), fun hfit => ?fits, fun hover => ?overflows⟩
  case fits =>
    exact ⟨_, exec_block_of_fits (i := .ldB x) hexec hfit, hdigit 0 (by decide) (by omega),
      hdigit 1 (by decide) (by omega), hdigit 2 (by decide) hfit,
      hframe.mono fun _ ⟨k, hk, _, hp⟩ => ⟨k, hk, hp⟩⟩
  case overflows =>
    exact ⟨_, exec_block_of_overflows (i := .ldB x) hexec hover, State.haltedBy_raise _ _, hdigit 0 (by decide),
      hdigit 1 (by decide), hframe.andRaise _⟩

/-- Settles O33: `execStoreRegs_shape`, on the two sides of the last register's address being in range. -/
theorem storeRegsWritesTheBlock : Obligations.StoreRegsWritesTheBlock := by
  unfold Obligations.StoreRegsWritesTheBlock
  intro s x
  obtain ⟨m, -, hread, hother, hexec⟩ := execStoreRegs_shape x s
  have hframe : ChangesOnly (fun p => ∃ k : Reg, k ≤ x ∧ s.i.toNat + k.val ≤ 0xFFF ∧ p = .byte (s.i.toNat + k.val)) s
      { s with mem := m } :=
    .of_mem fun a ha => hother a fun k hk hv heq => ha ⟨k, hk, hv, congrArg Part.byte heq⟩
  refine ⟨decodesTo_of_eq_encode (wordXkk_eq_encodeXkk 0xF x 0x55) (by simp), fun hfit => ?fits, fun hover => ?overflows⟩
  case fits =>
    exact ⟨_, exec_block_of_fits (i := .storeRegs x) hexec hfit,
      fun k hk => hread k hk (le_trans (Nat.add_le_add_left hk _) hfit),
      hframe.mono fun _ ⟨k, hk, _, hp⟩ => ⟨k, hk, hp⟩⟩
  case overflows =>
    exact ⟨_, exec_block_of_overflows (i := .storeRegs x) hexec hover, State.haltedBy_raise _ _, hread,
      hframe.andRaise _⟩

/-- Settles O34: `execLoadRegs_shape`, on the two sides of the last register's address being in range. -/
theorem loadRegsReadsTheBlock : Obligations.LoadRegsReadsTheBlock := by
  unfold Obligations.LoadRegsReadsTheBlock
  intro s x
  obtain ⟨v, hget, hexec⟩ := execLoadRegs_shape x s
  have hread : ∀ k : Reg, k ≤ x → s.i.toNat + k.val ≤ 0xFFF →
      ({ s with v := v } : State).getV k = Memory.read s.mem (s.i.toNat + k.val) :=
    fun k hk hv => (hget k).trans (if_pos ⟨hk, hv⟩)
  have hframe : ChangesOnly (fun p => ∃ k : Reg, k ≤ x ∧ s.i.toNat + k.val ≤ 0xFFF ∧ p = .reg k) s { s with v := v } :=
    .of_regs fun r hr => (hget r).trans (if_neg fun ⟨hx, hv⟩ => hr ⟨r, hx, hv, rfl⟩)
  refine ⟨decodesTo_of_eq_encode (wordXkk_eq_encodeXkk 0xF x 0x65) (by simp), fun hfit => ?fits, fun hover => ?overflows⟩
  case fits =>
    exact ⟨_, exec_block_of_fits (i := .loadRegs x) hexec hfit,
      fun k hk => hread k hk (le_trans (Nat.add_le_add_left hk _) hfit),
      hframe.mono fun _ ⟨k, hk, _, hp⟩ => ⟨k, hk, hp⟩⟩
  case overflows =>
    exact ⟨_, exec_block_of_overflows (i := .loadRegs x) hexec hover, State.haltedBy_raise _ _, hread,
      hframe.andRaise _⟩

end Sys2Proof.Machine

/-! PROOFS. Framebuffer instructions (44_display.md R150 to R153): what DRW and CLS answer and leave unchanged, and the redraw
output over a whole clock edge. -/

namespace Sys2Proof.Machine

/-! ### The sprite's origin and its collisions -/

/-- R150: the column wraps at the width of the screen. -/
@[simp] theorem originX_eq_mod (b : Byte) : originX b = b.toNat % 64 := Nat.and_two_pow_sub_one_eq_mod b.toNat 6

/-- R150: the row wraps at the height of the screen. -/
@[simp] theorem originY_eq_mod (b : Byte) : originY b = b.toNat % 32 := Nat.and_two_pow_sub_one_eq_mod b.toNat 5

/-- R150: a draw that begins without a collision reports one exactly when a sprite bit falls on a pixel that was on. -/
theorem plotRows_collides_from_clear (xb yb : Nat) (rows : List Byte) (fb : Framebuffer) :
    (plotRows xb yb rows (fb, false)).2 = true ↔
      ∃ (px : Fin 64) (py : Fin 32), Framebuffer.get fb px py = true ∧ spriteBit xb yb rows px py = true := by
  simp [plotRows_collides, and_comm]

theorem State.getV_finishDraw_regF (s : State) (p : Plot) : (s.finishDraw p).getV regF = flagByte p.2 :=
  (State.getV_finishDraw s p regF).trans (if_pos rfl)

/-! ### Frames -/

/-- R151: replacing the framebuffer changes the screen alone. -/
theorem ChangesOnly.setFb (s : State) (fb : Framebuffer) : ChangesOnly (fun p => p = .screen) s { s with fb := fb } := by
  intro p hp
  cases p with
  | screen => exact absurd rfl hp
  | callStack => exact ⟨rfl, rfl⟩
  | control => exact ⟨rfl, rfl, rfl⟩
  | platform => exact ⟨rfl, rfl, rfl, rfl⟩
  | _ => rfl

/-- R150, R153: a completed draw changes VF, the screen and the redraw output alone. -/
theorem ChangesOnly.finishDraw (s : State) (p : Plot) :
    ChangesOnly (fun q => q = .screen ∨ q = .redraw ∨ q = .reg regF) s (s.finishDraw p) := by
  intro q hq
  cases q with
  | reg r => exact (State.getV_finishDraw s p r).trans (if_neg fun h => hq (.inr (.inr (congrArg Part.reg h))))
  | screen => exact absurd (.inl rfl) hq
  | redraw => exact absurd (.inr (.inl rfl)) hq
  | callStack => exact ⟨rfl, rfl⟩
  | control => exact ⟨rfl, rfl, rfl⟩
  | platform => exact ⟨rfl, rfl, rfl, rfl⟩
  | _ => rfl

/-! ### What the instructions answer -/

theorem exec_cls (s : State) : exec .cls s = .next { s with fb := Framebuffer.blank } := rfl

/-- R150: a sprite whose last row is in range is plotted from the wrapped origin, and the draw completes. -/
theorem exec_drw_completes (x y : Reg) {n : Fin 16} {s : State} (h : n.val = 0 ∨ s.i.toNat + (n.val - 1) ≤ 0xFFF) :
    exec (.drw x y n) s =
      .next (s.finishDraw
        (plotRows ((s.getV x).toNat % 64) ((s.getV y).toNat % 32) (s.spriteAt n) (s.fb, false))) := by
  rw [exec, execDrw_reads x y n s (by omega), originX_eq_mod, originY_eq_mod]

/-- R150: a sprite whose last row is above 0xFFF raises the fault of the first row that is, before any pixel is touched. -/
theorem exec_drw_faults (x y : Reg) {n : Fin 16} {s : State} (hn : n.val ≠ 0) (h : 0xFFF < s.i.toNat + (n.val - 1)) :
    exec (.drw x y n) s =
      .next (s.raise (.segmentationFault (if s.i.toNat ≤ 0xFFF then 0x1000 else s.i))) := by
  rw [exec, execDrw_faults x y n s (by omega), ofNat_max_bound]

/-! ### The redraw output -/

theorem State.storeBytes_redraw (s : State) (a : Nat) (bs : List Byte) : (s.storeBytes a bs).redraw = s.redraw := by
  obtain ⟨m, -, -, hstore⟩ := State.storeBytes_shape bs s a
  rw [hstore]
  split <;> rfl

theorem State.loadEdge_redraw (s : State) : s.loadEdge.redraw = s.redraw := by
  obtain ⟨m, s1, -, hwrite, hedge⟩ := State.loadEdge_shape s
  have hs1 : s1.redraw = s.redraw := by
    obtain rfl | ⟨-, rfl⟩ := hwrite <;> rfl
  rw [hedge]
  split <;> exact hs1

/-- R153: no instruction but DRW touches the redraw output. -/
theorem exec_redraw_of_ne_drw {i : Instr} {s t : State} (h : exec i s = .next t) (hi : ∀ x y n, i ≠ .drw x y n) :
    t.redraw = s.redraw := by
  cases i with
  | drw x y n => exact absurd rfl (hi x y n)
  | jp nnn =>
    by_cases hself : zextAddr nnn = s.pc - 2
    · cases (exec_jp_self hself).symm.trans h; rfl
    · cases (exec_jp_other hself).symm.trans h; rfl
  | call nnn =>
    by_cases hroom : s.sp.val < 16
    · cases (exec_call_room nnn hroom).symm.trans h; rfl
    · cases (exec_call_full nnn (by omega)).symm.trans h; rfl
  | ret =>
    by_cases hempty : s.sp.val = 0
    · cases (exec_ret_empty hempty).symm.trans h; rfl
    · have hentry : s.sp.val = (⟨s.sp.val - 1, by omega⟩ : Fin 16).val + 1 := by simp only; omega
      cases (exec_ret_entry hentry).symm.trans h; rfl
  | ldVxK x =>
    by_cases hkeys : s.keysIn = 0x0000
    · cases (if_pos hkeys : exec (.ldVxK x) s = _).symm.trans h; rfl
    · cases (if_neg hkeys : exec (.ldVxK x) s = _).symm.trans h; rfl
  | ldB | storeRegs => cases h; exact State.storeBytes_redraw _ _ _
  | loadRegs x =>
    obtain ⟨v, -, hload⟩ := execLoadRegs_shape x s
    cases hload.symm.trans h
    split <;> rfl
  | seByte | sneByte | seReg | sneReg | skp | sknp => cases h; exact State.skipIf_redraw _ _
  | _ => cases h; rfl

/-- R153: redraw after a DRW that starts with it low is high exactly when the draw completes. -/
theorem exec_drw_redraw_iff {x y : Reg} {n : Fin 16} {s t : State} (h : exec (.drw x y n) s = .next t)
    (hlow : s.redraw = false) : t.redraw = true ↔ n.val = 0 ∨ s.i.toNat + (n.val - 1) ≤ 0xFFF := by
  by_cases hfit : n.val = 0 ∨ s.i.toNat + (n.val - 1) ≤ 0xFFF
  · cases (exec_drw_completes x y hfit).symm.trans h
    exact iff_of_true rfl hfit
  · cases (exec_drw_faults x y (by omega) (by omega)).symm.trans h
    exact iff_of_false (by simp [hlow]) hfit

/-- R153: redraw is high only after an edge that executes an instruction; a reset, a loader edge, an edge without a step and a
fault before Execute leave it low. -/
theorem step_executes_of_redraw {s t : State} (h : step s = .next t) (hred : t.redraw = true) :
    s.steps ∧ ∃ i, s.fetches i ∧ exec i (s.atStep.setPc (s.pc + 2)) = .next t := by
  obtain ⟨-, rfl⟩ | ⟨-, -, rfl⟩ | ⟨-, -, rfl⟩ | ⟨-, -, -, rfl⟩ | ⟨-, -, rfl⟩ | ⟨-, -, rfl⟩ | ⟨-, -, -, rfl⟩ | hexec :=
    step_cases s t h
  · simp [State.reset] at hred
  · simp [State.loadEdge_redraw] at hred
  · simp at hred
  · simp at hred
  · simp at hred
  · simp at hred
  · simp at hred
  · exact hexec

/-! ### The statements -/

/-- Settles O36: `exec_drw_completes` and `exec_drw_faults`, on the two sides of the last row's address being in range; the
pixels by `plotRows_get`, VF by `plotRows_collides_from_clear`. -/
theorem drawXorsTheSpriteOrFaults : Obligations.DrawXorsTheSpriteOrFaults := by
  unfold Obligations.DrawXorsTheSpriteOrFaults
  intro s x y n
  refine ⟨decodesTo_of_eq_encode (wordXyn_eq_encodeXyn 0xD x y n) (by simp), fun hfit => ?completes,
    fun hn hover => exec_halts_of_raise (exec_drw_faults x y hn hover)⟩
  case completes =>
    refine ⟨_, exec_drw_completes x y hfit, fun px py => plotRows_get _ _ _ _ px py, fun hcollides => ?_, fun hclear => ?_,
      rfl, ChangesOnly.finishDraw s _⟩
    · rw [State.getV_finishDraw_regF, (plotRows_collides_from_clear _ _ _ _).mpr hcollides]; rfl
    · have hflag : (plotRows ((s.getV x).toNat % 64) ((s.getV y).toNat % 32) (s.spriteAt n) (s.fb, false)).2 = false := by
        rw [← Bool.not_eq_true, plotRows_collides_from_clear]
        exact fun ⟨px, py, hon, hbit⟩ => Bool.false_ne_true ((hclear px py hon).symm.trans hbit)
      rw [State.getV_finishDraw_regF, hflag]; rfl

/-- Settles O53: by `step_executes_of_redraw` redraw can only come from an executed instruction, by `exec_redraw_of_ne_drw` only from a
DRW, and by `exec_drw_redraw_iff` only from one that completes. -/
theorem redrawPulsesAfterDrwOnly : Obligations.RedrawPulsesAfterDrwOnly := by
  unfold Obligations.RedrawPulsesAfterDrwOnly
  intro s t h
  have hlow : (s.atStep.setPc (s.pc + 2)).redraw = false := by simp
  constructor
  · intro hred
    obtain ⟨hsteps, i, hfetch, hexec⟩ := step_executes_of_redraw h hred
    obtain ⟨x, y, n, rfl⟩ : ∃ x y n, i = .drw x y n := by
      by_contra! hne
      exact absurd hred (by simp [exec_redraw_of_ne_drw hexec hne])
    exact ⟨hsteps, x, y, n, hfetch, by simpa using (exec_drw_redraw_iff hexec hlow).mp hred⟩
  · rintro ⟨hsteps, x, y, n, hfetch, hfit⟩
    have hexec := (step_of_fetches hsteps hfetch).symm.trans h
    exact (exec_drw_redraw_iff hexec hlow).mpr (by simpa using hfit)

/-- Settles O38: `exec_cls`, the pixels by `Framebuffer.get_blank`. -/
theorem clsTurnsEveryPixelOff : Obligations.ClsTurnsEveryPixelOff := by
  unfold Obligations.ClsTurnsEveryPixelOff
  intro s
  exact ⟨decodesTo_encode (i := .cls) (by simp), _, exec_cls s, Framebuffer.get_blank, ChangesOnly.setFb s _⟩

end Sys2Proof.Machine

/-! PROOFS. Timer and key instructions (45_timers_keys.md R160 to R166): the timer transfers, the skips on keys, and the key wait,
which leaves the machine as the edge found it while no key is down. -/

namespace Sys2Proof.Machine

/-! ### Frames -/

/-- The frame of new values for DT and ST: each timer that changes is named. -/
theorem ChangesOnly.of_timers {named : Part → Prop} {s : State} {dt st : Byte} (hdt : ¬ named .delayTimer → dt = s.dt)
    (hst : ¬ named .soundTimer → st = s.st) : ChangesOnly named s { s with dt := dt, st := st } := by
  intro p hp
  cases p with
  | delayTimer => exact hdt hp
  | soundTimer => exact hst hp
  | callStack => exact ⟨rfl, rfl⟩
  | control => exact ⟨rfl, rfl, rfl⟩
  | platform => exact ⟨rfl, rfl, rfl, rfl⟩
  | _ => rfl

/-- A write of DT changes DT alone. -/
theorem ChangesOnly.setDt (s : State) (b : Byte) : ChangesOnly (fun p => p = .delayTimer) s (s.setDt b) :=
  ChangesOnly.of_timers (fun h => absurd rfl h) fun _ => rfl

/-- A write of ST changes ST alone. -/
theorem ChangesOnly.setSt (s : State) (b : Byte) : ChangesOnly (fun p => p = .soundTimer) s (s.setSt b) :=
  ChangesOnly.of_timers (fun _ => rfl) fun h => absurd rfl h

/-- R185: a tick changes DT alone. -/
theorem ChangesOnly.tick (s : State) : ChangesOnly (fun p => p = .delayTimer) s s.tick := by
  unfold State.tick
  split
  case isTrue => exact ChangesOnly.refl _ s
  case isFalse => exact ChangesOnly.setDt s _

/-- R22, R153: sampling the pins changes the edge's own pieces alone. -/
theorem ChangesOnly.sampleInputs (s : State) : ChangesOnly Part.isEdge s s.sampleInputs := by
  intro p hp
  cases p with
  | platform => exact absurd (.inl rfl) hp
  | redraw => exact absurd (.inr rfl) hp
  | callStack => exact ⟨rfl, rfl⟩
  | control => exact ⟨rfl, rfl, rfl⟩
  | _ => rfl

/-- R210: what happens on an edge before its step changes the edge's own pieces and DT alone. -/
theorem ChangesOnly.atStep (s : State) : ChangesOnly (fun p => p.isEdge ∨ p = .delayTimer) s s.atStep := by
  have hsample : ChangesOnly (fun p => p.isEdge ∨ p = .delayTimer) s s.sampleInputs :=
    (ChangesOnly.sampleInputs s).mono fun _ => .inl
  unfold State.atStep
  split
  case isTrue => exact hsample.trans ((ChangesOnly.tick _).mono fun _ => .inr)
  case isFalse => exact hsample

/-! ### Key numbers -/

/-- R163, R164: the key tested is the one the low nibble numbers. -/
theorem keyDown_eq_getLsbD (keys : Word) (b : Byte) : keyDown keys b = keys.getLsbD (b.toNat % 16) :=
  congrArg keys.getLsbD (Nat.and_two_pow_sub_one_eq_mod b.toNat 4)

/-- R165: the lowest key is the one that is down with every smaller one up. -/
theorem toNat_lowestKey {keys : Word} {k : Fin 16} (hk : keys.getLsbD k.val = true)
    (hlow : ∀ j : Fin 16, j < k → keys.getLsbD j.val = false) : (lowestKey keys).toNat = k.val := by
  have hfind : (List.range 16).find? (fun j => keys.getLsbD j) = some k.val := by
    refine List.find?_range_eq_some.mpr ⟨hk, List.mem_range.mpr k.isLt, fun j hj => ?_⟩
    simpa using hlow ⟨j, hj.trans k.isLt⟩ hj
  rw [lowestKey, hfind, Option.getD_some, BitVec.toNat_ofNat]
  omega

/-- R166: `keys` in a step is the step's own sample, and 0 without a keypad. -/
theorem State.keysIn_atStep (s : State) :
    s.atStep.keysIn = if s.config.keysPresent then s.nextPins.keys else 0x0000 := by
  simp [State.keysIn]

/-! ### What the instructions answer -/

theorem exec_ldVxK_none (x : Reg) {s : State} (h : s.keysIn = 0x0000) : exec (.ldVxK x) s = .next (s.setPc (s.pc - 2)) :=
  if_pos h

theorem exec_ldVxK_down (x : Reg) {s : State} (h : s.keysIn ≠ 0x0000) :
    exec (.ldVxK x) s = .next (s.setV x (lowestKey s.keysIn)) :=
  if_neg h

/-- R165: a step that waits for a key takes the advance of PC back, so the edge does nothing beyond its sampling and its tick. -/
theorem step_of_key_wait {s : State} {x : Reg} (h : s.steps) (hi : s.fetches (.ldVxK x)) (hkeys : s.atStep.keysIn = 0x0000) :
    step s = .next s.atStep := by
  have hback : (s.atStep.setPc (s.pc + 2)).pc - 2 = s.atStep.pc := by simp
  calc step s = exec (.ldVxK x) (s.atStep.setPc (s.pc + 2)) := step_of_fetches h hi
    _ = .next ((s.atStep.setPc (s.pc + 2)).setPc s.atStep.pc) := hback ▸ exec_ldVxK_none x hkeys
    _ = .next s.atStep := rfl

/-! ### The statements -/

/-- Settles O46: the two answers of LD Vx, K, the key's number by `toNat_lowestKey`, and the waiting step by `step_of_key_wait`. -/
theorem keyWaitRepeatsOrCompletes : Obligations.KeyWaitRepeatsOrCompletes := by
  unfold Obligations.KeyWaitRepeatsOrCompletes
  intro s x
  refine ⟨decodesTo_of_eq_encode (wordXkk_eq_encodeXkk 0xF x 0x0A) (by simp), fun hnone => ?repeats,
    fun k hk hlow => ?completes, fun h hi hnone => ?waits⟩
  case repeats => exact ⟨_, exec_ldVxK_none x hnone, rfl, ChangesOnly.setPc s _⟩
  case completes =>
    have hdown : s.keysIn ≠ 0x0000 := fun hzero => by simp [hzero] at hk
    obtain ⟨t, ht, hx, hframe⟩ := exec_writes_of_setV (exec_ldVxK_down x hdown)
    exact ⟨t, ht, hx ▸ toNat_lowestKey hk hlow, hframe⟩
  case waits => exact ⟨_, step_of_key_wait h hi hnone, State.atStep_pc s, ChangesOnly.atStep s⟩

/-- Settles O45: both skips are `exec_skips_of_skipIf`, the key by `keyDown_eq_getLsbD`, the sample by `State.keysIn_atStep`. -/
theorem skipsOnKeys : Obligations.SkipsOnKeys := by
  unfold Obligations.SkipsOnKeys
  refine ⟨fun s x => ⟨decodesTo_of_eq_encode (wordXkk_eq_encodeXkk 0xE x 0x9E) (by simp),
    decodesTo_of_eq_encode (wordXkk_eq_encodeXkk 0xE x 0xA1) (by simp), ?skp, ?sknp⟩, rfl, State.keysIn_atStep⟩
  case skp => simpa [keyDown_eq_getLsbD] using exec_skips_of_skipIf (i := .skp x) (s := s) rfl
  case sknp =>
    obtain ⟨t, ht, hpc, hframe⟩ := exec_skips_of_skipIf (i := .sknp x) (s := s) rfl
    refine ⟨t, ht, ?_, hframe⟩
    rw [hpc, keyDown_eq_getLsbD]
    cases s.keysIn.getLsbD ((s.getV x).toNat % 16) <;> rfl

/-- Settles O47: one write each, of Vx, of DT and of ST. -/
theorem timerTransfers : Obligations.TimerTransfers := by
  unfold Obligations.TimerTransfers
  intro s x
  exact ⟨decodesTo_of_eq_encode (wordXkk_eq_encodeXkk 0xF x 0x07) (by simp),
    decodesTo_of_eq_encode (wordXkk_eq_encodeXkk 0xF x 0x15) (by simp),
    decodesTo_of_eq_encode (wordXkk_eq_encodeXkk 0xF x 0x18) (by simp),
    exec_writes_of_setV rfl, ⟨_, rfl, rfl, ChangesOnly.setDt s _⟩, ⟨_, rfl, rfl, ChangesOnly.setSt s _⟩⟩

end Sys2Proof.Machine

/-! PROOFS. Fault entry, HALT and the timer engine (60_exceptions.md R170 to R187): the clock edges that take no step. -/

namespace Sys2Proof.Machine

/-! ### Clock edges without a step -/

/-- R87, R182: in HALT a clock edge samples the pins and does nothing else. -/
theorem step_of_halt {s : State} (hrst : s.nextPins.rst = false) (h : s.runState = .halt) :
    step s = .next s.sampleInputs := by
  simp [step_eq, hrst, h]

/-- R87, R201: in LOAD a clock edge serves the loader port and `start`. -/
theorem step_of_load {s : State} (hrst : s.nextPins.rst = false) (h : s.runState = .load) :
    step s = .next s.sampleInputs.loadEdge := by
  simp [step_eq, hrst, h]

/-- R86, R185: in RUN a clock edge without the `step` strobe takes its tick, if one comes, and nothing more. -/
theorem step_of_run_of_no_step {s : State} (hrst : s.nextPins.rst = false) (h : s.runState = .run)
    (hstep : s.nextPins.step = false) : step s = .next s.atStep := by
  simp [step_eq, hrst, h, hstep]

/-! ### The loader edge -/

/-- R201, R202: a loader edge with `ld_we` and `start` low changes nothing. -/
theorem State.loadEdge_of_idle {s : State} (hwe : s.pins.ldWe = false) (hstart : s.pins.start = false) :
    s.loadEdge = s := by
  simp [State.loadEdge, hwe, hstart]

/-- R185: a loader edge takes no tick. -/
theorem State.loadEdge_dt (s : State) : s.loadEdge.dt = s.dt := by
  obtain ⟨m, s1, -, hwrite, hedge⟩ := State.loadEdge_shape s
  have hs1 : s1.dt = s.dt := by
    obtain rfl | ⟨-, rfl⟩ := hwrite <;> rfl
  rw [hedge]
  split <;> exact hs1

/-! ### The tick -/

/-- R185: a tick decrements DT, and DT stays at 0. -/
theorem State.toNat_tick_dt (s : State) : s.tick.dt.toNat = s.dt.toNat - 1 := by
  by_cases hzero : s.dt = 0
  · simp [hzero]
  · rw [State.tick_dt, if_neg hzero]
    bv_omega

/-- R185: before its step, an edge has decremented DT exactly when `tick60` is high. -/
theorem State.toNat_atStep_dt (s : State) :
    s.atStep.dt.toNat = s.dt.toNat - (if s.nextPins.tick60 then 1 else 0) := by
  unfold State.atStep
  split
  case isTrue => rw [State.toNat_tick_dt, State.sampleInputs_dt]
  case isFalse => rw [State.sampleInputs_dt, Nat.sub_zero]

/-! ### The statements -/

/-- Settles O11: in HALT the edge is `State.sampleInputs`, and in LOAD with the loader pins low it is that too. -/
theorem noStepAndNoTickInLoadOrHalt : Obligations.NoStepAndNoTickInLoadOrHalt := by
  unfold Obligations.NoStepAndNoTickInLoadOrHalt
  intro s hrst
  refine ⟨fun h => ?halt, fun h hwe hstart => ?load⟩
  case halt => exact ⟨_, step_of_halt hrst h, State.sampleInputs_redraw s, ChangesOnly.sampleInputs s⟩
  case load =>
    have hidle : s.sampleInputs.loadEdge = s.sampleInputs := State.loadEdge_of_idle hwe hstart
    exact ⟨_, hidle ▸ step_of_load hrst h, State.sampleInputs_redraw s, ChangesOnly.sampleInputs s⟩

/-- Settles O17: the tick by `State.toNat_tick_dt`; the edge in RUN is `State.atStep`; in LOAD and in HALT no edge touches DT. -/
theorem tickDecrementsDTWhileRunning : Obligations.TickDecrementsDTWhileRunning := by
  unfold Obligations.TickDecrementsDTWhileRunning
  intro s
  refine ⟨⟨State.toNat_tick_dt s, ChangesOnly.tick s⟩, fun hrun hrst hstep => ?running, fun hrun hrst => ?outside⟩
  case running =>
    exact ⟨_, step_of_run_of_no_step hrst hrun hstep, State.toNat_atStep_dt s, State.atStep_redraw s, ChangesOnly.atStep s⟩
  case outside =>
    cases h : s.runState with
    | run => exact absurd h hrun
    | load => exact ⟨_, step_of_load hrst h, State.loadEdge_dt _⟩
    | halt => exact ⟨_, step_of_halt hrst h, State.sampleInputs_dt s⟩

/-- Settles O10: fault entry by `State.haltedBy_raise` and `ChangesOnly.raise`; the codes and infos are the rows of R170's table. -/
theorem faultEntryLatchesAndHalts : Obligations.FaultEntryLatchesAndHalts := by
  unfold Obligations.FaultEntryLatchesAndHalts
  constructor
  · intro s f
    exact ⟨State.haltedBy_raise s f, rfl, ChangesOnly.raise s f⟩
  · intro w
    and_intros <;> rfl

end Sys2Proof.Machine

/-! PROOFS. Reset and hazards (70_reset_and_hazards.md R200, R210): what `rst` does from every state, that HALT keeps itself without it,
and the tick of an edge ahead of that edge's timer transfer. -/

namespace Sys2Proof.Machine

/-! ### Reset -/

/-- R200: reset leaves every piece of state at its reset value; the model's own fields stay (log 12). -/
theorem ChangesOnly.takeReset (s : State) : ChangesOnly (fun p => p = .platform) State.reset s.takeReset := by
  intro p hp
  cases p with
  | platform => exact absurd rfl hp
  | callStack => exact ⟨rfl, rfl⟩
  | control => exact ⟨rfl, rfl, rfl⟩
  | _ => rfl

/-- R200: a clock edge with `rst` high is a reset, whatever RUN_STATE is. -/
theorem step_of_rst {s : State} (hrst : s.nextPins.rst = true) : step s = .next s.sampleInputs.takeReset := by
  rw [step_eq, if_pos hrst]

/-- R182: without `rst` a clock edge in HALT ends in HALT. -/
theorem step_keeps_halt {s t : State} (hrst : s.nextPins.rst = false) (h : s.runState = .halt) (hst : step s = .next t) :
    t.runState = .halt := by
  obtain rfl : s.sampleInputs = t := Host.Outcome.next.inj ((step_of_halt hrst h).symm.trans hst)
  rw [State.sampleInputs_runState, h]

/-! ### The timer transfers in a step -/

/-- R160: a step of LD Vx, DT writes the byte its edge's tick has left in DT. -/
theorem step_of_ldVxDT {s : State} {x : Reg} (h : s.steps) (hi : s.fetches (.ldVxDT x)) :
    step s = .next ((s.atStep.setPc (s.pc + 2)).setV x s.atStep.dt) :=
  step_of_fetches h hi

/-- R161: a step of LD DT, Vx writes over whatever its edge's tick has left in DT. -/
theorem step_of_ldDTVx {s : State} {x : Reg} (h : s.steps) (hi : s.fetches (.ldDTVx x)) :
    step s = .next ((s.atStep.setPc (s.pc + 2)).setDt (s.getV x)) := by
  rw [← State.getV_atStep s x]
  exact step_of_fetches h hi

/-! ### The statements -/

/-- Settles O13: the edge with `rst` high is `step_of_rst`, its values `ChangesOnly.takeReset`; with `rst` low `step_keeps_halt`
rules leaving HALT out. -/
theorem rstResetsFromEveryState : Obligations.RstResetsFromEveryState := by
  unfold Obligations.RstResetsFromEveryState
  refine ⟨fun s hrst => ⟨_, step_of_rst hrst, ChangesOnly.takeReset s.sampleInputs⟩, fun s t hhalt hst hleaves => ?_⟩
  by_contra hrst
  exact hleaves (step_keeps_halt (Bool.eq_false_of_not_eq_true hrst) hhalt hst)

/-- Settles O19: both transfers act on `State.atStep`, whose DT `State.toNat_atStep_dt` gives; the read takes it, the write replaces
it. -/
theorem tickComesBeforeStep : Obligations.TickComesBeforeStep := by
  unfold Obligations.TickComesBeforeStep
  intro s x h htick
  have hdt : s.atStep.dt.toNat = s.dt.toNat - 1 := by rw [State.toNat_atStep_dt, if_pos htick]
  refine ⟨fun hi => ⟨_, step_of_ldVxDT h hi, ?_, hdt⟩, fun hi => ⟨_, step_of_ldDTVx h hi, rfl⟩⟩
  rw [State.getV_setV, if_pos rfl, hdt]

end Sys2Proof.Machine

/-! PROOFS. What an instruction can do to the state, said once: every answer of `exec` is an `Effect`. The whole-machine rules on who
writes what (10_state.md R10 to R19, 60_exceptions.md R179) are read off it. -/

namespace Sys2Proof.Machine

/-! ### The kinds of fault the machine raises -/

/-- The fault can be raised: it is none of the reserved kinds, and a bad address lies above memory (R171 to R178). -/
def FaultKind.Raisable : FaultKind → Prop
  | .segmentationFault addr => 0x1000 ≤ addr.toNat
  | .invalidInstruction _ | .stackOverflow | .infiniteLoop | .stackUnderflow => True
  | .invalidAddress | .invalidRegister _ | .programLoadError => False

/-- R56, R171: the first address of a block from `I` upward that is above 0xFFF. -/
theorem FaultKind.raisable_blockBound (i : Word) :
    FaultKind.Raisable (.segmentationFault (BitVec.ofNat 16 (max i.toNat 0x1000))) := by
  have hi := i.isLt
  simp only [FaultKind.Raisable, BitVec.toNat_ofNat]
  omega

theorem FaultKind.Raisable.code_ne_zero {f : FaultKind} (h : f.Raisable) : f.code ≠ 0 := by
  cases f with
  | invalidAddress | invalidRegister | programLoadError => exact h.elim
  | _ => simp [FaultKind.code]

/-! ### The effects -/

/-- `t` is a state that the instruction `i` may answer in `s`: registers and memory that its row lets it write, with or without a
fault of its one kind after them, or one of the effects on the other pieces of state. -/
inductive Effect (s : State) : Instr → State → Prop
  | data {i : Instr} (v : Vector Byte 16) (m : Memory)
      (hv : ∀ r, writesReg i r = false → ({ s with v := v } : State).getV r = s.getV r)
      (hm : (∀ x, i ≠ .ldB x ∧ i ≠ .storeRegs x) → m = s.mem) (hwf : Memory.wf s.mem → Memory.wf m) :
      Effect s i { s with v := v, mem := m }
  | fault {i : Instr} (v : Vector Byte 16) (m : Memory) (f : FaultKind)
      (hv : ∀ r, writesReg i r = false → ({ s with v := v } : State).getV r = s.getV r)
      (hm : (∀ x, i ≠ .ldB x ∧ i ≠ .storeRegs x) → m = s.mem) (hwf : Memory.wf s.mem → Memory.wf m)
      (hf : f.Raisable) (hcode : f.code = raisesCode i) :
      Effect s i (({ s with v := v, mem := m } : State).raise f)
  | jump {i : Instr} (a : Word) (hi : writesPc i = true) (ha : a.toNat ≤ 0x10FE ∨ a = s.pc + 2 ∨ a = s.pc - 2) :
      Effect s i (s.setPc a)
  | call (nnn : Addr12) (h : s.sp.val < 16) :
      Effect s (.call nnn)
        (({ s with stack := s.stack.set s.sp.val s.pc h, sp := ⟨s.sp.val + 1, by omega⟩ } : State).setPc (zextAddr nnn))
  | ret (k : Fin 16) (h : s.sp.val = k.val + 1) :
      Effect s .ret (({ s with sp := k.castSucc } : State).setPc s.stack[k])
  | index {i : Instr} (a : Word) (hi : ∃ nnn x, i = .ldI nnn ∨ i = .addI x ∨ i = .ldF x) : Effect s i (s.setI a)
  | delay (x : Reg) : Effect s (.ldDTVx x) (s.setDt (s.getV x))
  | sound (x : Reg) : Effect s (.ldSTVx x) (s.setSt (s.getV x))
  | clear : Effect s .cls { s with fb := Framebuffer.blank }
  | draw (x y : Reg) (n : Fin 16) (p : Plot) : Effect s (.drw x y n) (s.finishDraw p)

theorem Effect.unchanged (i : Instr) (s : State) : Effect s i s :=
  .data s.v s.mem (fun _ _ => rfl) (fun _ => rfl) id

/-- A fault that comes before anything is written. -/
theorem Effect.raise {i : Instr} (s : State) {f : FaultKind} (hf : f.Raisable) (hcode : f.code = raisesCode i) :
    Effect s i (s.raise f) :=
  .fault s.v s.mem f (fun _ _ => rfl) (fun _ => rfl) id hf hcode

/-- New registers in which every register that the row does not name reads as before. -/
theorem Effect.regs {i : Instr} {s : State} (v : Vector Byte 16)
    (hv : ∀ r, writesReg i r = false → ({ s with v := v } : State).getV r = s.getV r) : Effect s i { s with v := v } :=
  .data v s.mem hv (fun _ => rfl) id

theorem ne_of_writesReg {i : Instr} {r x : Reg} (hr : writesReg i r = false) (hx : writesReg i x = true) : r ≠ x :=
  fun h => Bool.false_ne_true (hr.symm.trans (h ▸ hx))

theorem Effect.setV {i : Instr} {x : Reg} (s : State) (b : Byte) (hx : writesReg i x = true) : Effect s i (s.setV x b) :=
  .regs _ fun r hr => (State.getV_setV s x r b).trans (if_neg (ne_of_writesReg hr hx))

theorem Effect.setResultThenFlag {i : Instr} {x : Reg} (s : State) (b : Byte) (c : Bool) (hx : writesReg i x = true)
    (hf : writesReg i regF = true) : Effect s i (s.setResultThenFlag x b c) :=
  .regs _ fun r hr => (State.getV_setResultThenFlag s x r b c).trans <|
    (if_neg (ne_of_writesReg hr hf)).trans (if_neg (ne_of_writesReg hr hx))

theorem Effect.setFlagThenResult {i : Instr} {x : Reg} (s : State) (b : Byte) (c : Bool) (hx : writesReg i x = true)
    (hf : writesReg i regF = true) : Effect s i (s.setFlagThenResult x b c) :=
  .regs _ fun r hr => (State.getV_setFlagThenResult s x r b c).trans <|
    (if_neg (ne_of_writesReg hr hx)).trans (if_neg (ne_of_writesReg hr hf))

theorem Effect.skipIf {i : Instr} (s : State) (c : Bool) (hi : writesPc i = true) : Effect s i (s.skipIf c) := by
  cases c with
  | true => exact .jump _ hi (.inr (.inl rfl))
  | false => exact .unchanged i s

/-- R143, R144: a block store writes memory, up to a SegmentationFault where the block does not fit. -/
theorem Effect.storeBytes {i : Instr} (s : State) (bs : List Byte) (hi : ∃ x, i = .ldB x ∨ i = .storeRegs x) :
    Effect s i (s.storeBytes s.base bs) := by
  obtain ⟨m, hwf, -, hstore⟩ := State.storeBytes_shape bs s s.base
  obtain ⟨x, hx⟩ := hi
  have hm : (∀ x, i ≠ .ldB x ∧ i ≠ .storeRegs x) → m = s.mem := fun h => (hx.elim (h x).1 (h x).2).elim
  have hcode : 1 = raisesCode i := by obtain rfl | rfl := hx <;> rfl
  rw [hstore]
  split
  case isTrue => exact .data s.v m (fun _ _ => rfl) hm hwf
  case isFalse => exact .fault s.v m _ (fun _ _ => rfl) hm hwf (FaultKind.raisable_blockBound s.i) hcode

/-- R145: a block load writes V0..Vx, up to a SegmentationFault where the block does not fit. -/
theorem Effect.loadRegs {s t : State} {x : Reg} (h : exec (.loadRegs x) s = .next t) : Effect s (.loadRegs x) t := by
  obtain ⟨v, hget, hload⟩ := execLoadRegs_shape x s
  have hv : ∀ r, writesReg (.loadRegs x) r = false → ({ s with v := v } : State).getV r = s.getV r := fun r hr =>
    (hget r).trans (if_neg fun hle => of_decide_eq_false hr hle.1)
  cases hload.symm.trans h
  split
  case isTrue => exact .regs v hv
  case isFalse => exact .fault v s.mem _ hv (fun _ => rfl) id (FaultKind.raisable_blockBound s.i) rfl

/-- R84: what an instruction answers is one of its effects. -/
theorem exec_effect {i : Instr} {s t : State} (h : exec i s = .next t) : Effect s i t := by
  cases i with
  | sys => cases h; exact .unchanged _ s
  | cls => cases h; exact .clear
  | jp nnn =>
    by_cases hself : zextAddr nnn = s.pc - 2
    · cases (exec_jp_self hself).symm.trans h; exact .raise s trivial rfl
    · cases (exec_jp_other hself).symm.trans h
      exact .jump _ rfl (.inl (by rw [toNat_zextAddr]; omega))
  | call nnn =>
    by_cases hroom : s.sp.val < 16
    · cases (exec_call_room nnn hroom).symm.trans h; exact .call nnn hroom
    · cases (exec_call_full nnn (by omega)).symm.trans h; exact .raise s trivial rfl
  | ret =>
    by_cases hempty : s.sp.val = 0
    · cases (exec_ret_empty hempty).symm.trans h; exact .raise s trivial rfl
    · have hentry : s.sp.val = (⟨s.sp.val - 1, by omega⟩ : Fin 16).val + 1 := by simp only; omega
      cases (exec_ret_entry hentry).symm.trans h; exact .ret _ hentry
  | jpV0 nnn =>
    cases h
    exact .jump _ rfl (.inl (by rw [toNat_zextAddr_add_zextByte]; omega))
  | seByte | sneByte | seReg | sneReg | skp | sknp => cases h; exact .skipIf s _ rfl
  | ldVxK x =>
    by_cases hkeys : s.keysIn = 0x0000
    · cases (exec_ldVxK_none x hkeys).symm.trans h; exact .jump _ rfl (.inr (.inr rfl))
    · cases (exec_ldVxK_down x hkeys).symm.trans h; exact .setV s _ (decide_eq_true rfl)
  | ldByte | addByte | ldReg | orReg | andReg | xorReg | rnd | ldVxDT => cases h; exact .setV s _ (decide_eq_true rfl)
  | addReg | subReg | subnReg => cases h; exact .setResultThenFlag s _ _ (by simp [writesReg]) (by simp [writesReg])
  | shr | shl => cases h; exact .setFlagThenResult s _ _ (by simp [writesReg]) (by simp [writesReg])
  | ldI nnn => cases h; exact .index _ ⟨nnn, 0, .inl rfl⟩
  | addI x => cases h; exact .index _ ⟨0, x, .inr (.inl rfl)⟩
  | ldF x => cases h; exact .index _ ⟨0, x, .inr (.inr rfl)⟩
  | ldDTVx x => cases h; exact .delay x
  | ldSTVx x => cases h; exact .sound x
  | ldB x => cases h; exact .storeBytes s _ ⟨x, .inl rfl⟩
  | storeRegs x => cases h; exact .storeBytes s _ ⟨x, .inr rfl⟩
  | loadRegs x => exact .loadRegs h
  | drw x y n =>
    by_cases hfit : n.val = 0 ∨ s.i.toNat + n.val ≤ 0x1000
    · cases (execDrw_reads x y n s hfit).symm.trans h; exact .draw x y n _
    · cases (execDrw_faults x y n s (by omega)).symm.trans h
      exact .raise s (FaultKind.raisable_blockBound s.i) rfl

/-- No instruction touches the model's own fields. -/
theorem exec_platform {i : Instr} {s t : State} (h : exec i s = .next t) : Part.platform.same s t := by
  cases exec_effect h <;> exact ⟨rfl, rfl, rfl, rfl⟩

/-! ### The statements -/

/-- Settles O48: the registers of each effect; a register that the row does not name is in none of them. -/
theorem registersWrittenAreTheTable : Obligations.RegistersWrittenAreTheTable := by
  unfold Obligations.RegistersWrittenAreTheTable
  intro i s t r h hr
  cases exec_effect h with
  | data v m hv => exact hv r hr
  | fault v m f hv => exact hv r hr
  | draw x y n p => exact (State.getV_finishDraw s p r).trans (if_neg (of_decide_eq_false hr))
  | _ => rfl

/-- Settles O49: redraw by `exec_redraw_of_ne_drw`; of the effects two write the framebuffer, and they are those of CLS and
DRW. -/
theorem screenWrittenByClsAndDrw : Obligations.ScreenWrittenByClsAndDrw := by
  unfold Obligations.ScreenWrittenByClsAndDrw
  intro i s t h hdrw
  refine ⟨exec_redraw_of_ne_drw h hdrw, fun hcls => ?_⟩
  cases exec_effect h with
  | clear => exact absurd rfl hcls
  | draw x y n p => exact absurd rfl (hdrw x y n)
  | _ => rfl

/-- Settles O50: each effect writes the pieces of its own instructions; every other piece is unchanged by definition. -/
theorem ownersOfTheRestOfTheState : Obligations.OwnersOfTheRestOfTheState := by
  unfold Obligations.OwnersOfTheRestOfTheState
  intro i s t h
  have hcontrol : raisesCode i = 0 → Part.control.same s t := fun h0 => by
    cases exec_effect h with
    | fault v m f _ _ _ hf hcode => exact absurd (hcode.trans h0) hf.code_ne_zero
    | _ => exact ⟨rfl, rfl, rfl⟩
  refine ⟨fun hmem => ?memory, fun hcall => ?callStack, fun hindex => ?indexReg, fun hdt => ?delayTimer,
    fun hst => ?soundTimer, fun hpc => ?counter, hcontrol, exec_platform h⟩
  case memory =>
    cases exec_effect h with
    | data v m _ hm | fault v m _ _ hm => exact hm hmem
    | _ => rfl
  case callStack =>
    cases exec_effect h with
    | call nnn => exact absurd rfl (hcall nnn)
    | ret k => exact ⟨rfl, fun hret => absurd rfl hret⟩
    | _ => exact ⟨rfl, fun _ => rfl⟩
  case indexReg =>
    cases exec_effect h with
    | index a hi =>
      obtain ⟨nnn, x, hi⟩ := hi
      obtain ⟨hldI, haddI, hldF⟩ := hindex nnn x
      exact (hi.elim hldI fun hi => hi.elim haddI hldF).elim
    | _ => rfl
  case delayTimer =>
    cases exec_effect h with
    | delay x => exact absurd rfl (hdt x)
    | _ => rfl
  case soundTimer =>
    cases exec_effect h with
    | sound x => exact absurd rfl (hst x)
    | _ => rfl
  case counter =>
    cases exec_effect h with
    | jump a hi => exact absurd (hi.symm.trans hpc) (by decide)
    | call | ret => cases hpc
    | _ => rfl

/-- Settles O51: only the effect `fault` touches RUN_STATE and the latch, and its code is the instruction's. -/
theorem execRaisesOnlyItsKind : Obligations.ExecRaisesOnlyItsKind := by
  unfold Obligations.ExecRaisesOnlyItsKind
  intro i s t h
  cases exec_effect h with
  | fault v m f _ _ _ hf hcode => exact .inr ⟨rfl, hcode, hcode ▸ hf.code_ne_zero⟩
  | _ => exact .inl ⟨rfl, rfl, rfl⟩

end Sys2Proof.Machine

/-! PROOFS. The loader port and `start` (70_reset_and_hazards.md R201, R202): what a clock edge in LOAD answers, and that a run of
them is `load_block` (20_memory.md R46). -/

namespace Sys2Proof.Machine

/-! ### Frames -/

/-- A write of RUN_STATE changes no other piece. -/
theorem ChangesOnly.setRunState (s : State) (r : RunState) : ChangesOnly Part.isControl s { s with runState := r } := by
  intro p hp
  cases p with
  | control => exact absurd rfl hp
  | callStack => exact ⟨rfl, rfl⟩
  | platform => exact ⟨rfl, rfl, rfl, rfl⟩
  | _ => rfl

/-- R201, R202: a loader edge changes bytes of memory, RUN_STATE and the fault latch alone. -/
theorem ChangesOnly.loadEdge (s : State) : ChangesOnly (fun p => p.isControl ∨ ∃ a, p = .byte a) s s.loadEdge := by
  obtain ⟨m, s1, -, hwrite, hedge⟩ := State.loadEdge_shape s
  have hmem : ChangesOnly (fun p => ∃ a, p = .byte a) s { s with mem := m } := .of_mem fun a ha => absurd ⟨a, rfl⟩ ha
  have hs1 : ChangesOnly (fun p => p.isControl ∨ ∃ a, p = .byte a) s s1 := by
    obtain rfl | ⟨-, rfl⟩ := hwrite
    · exact hmem.mono fun _ => .inr
    · exact hmem.andRaise _
  rw [hedge]
  split
  case isTrue => exact hs1.trans ((ChangesOnly.setRunState s1 .run).mono fun _ => .inl)
  case isFalse => exact hs1

/-! ### The answers of a loader edge -/

/-- R201, R202: a write in range stores its byte, and `start` on the same edge is honoured. -/
theorem State.loadEdge_of_write {s : State} (hload : s.runState = .load) (hwe : s.pins.ldWe = true)
    (ha : s.pins.ldAddr.toNat ≤ 0xFFF) :
    s.loadEdge = { s with
      mem := Memory.write s.mem s.pins.ldAddr.toNat s.pins.ldData
      runState := if s.pins.start then .run else .load } := by
  cases hstart : s.pins.start <;> simp [State.loadEdge, State.storeBytes, State.memWrite_valid, hwe, ha, hload, hstart]

/-- R201: a write above 0xFFF halts the machine, `start` or not (log 11). -/
theorem State.loadEdge_of_fault {s : State} (hwe : s.pins.ldWe = true) (ha : 0xFFF < s.pins.ldAddr.toNat) :
    s.loadEdge = s.raise (.segmentationFault s.pins.ldAddr) := by
  simp [State.loadEdge, State.storeBytes, State.memWrite_invalid, hwe, ha]

/-- R202: `start` without a write puts the machine in RUN. -/
theorem State.loadEdge_of_start {s : State} (hload : s.runState = .load) (hwe : s.pins.ldWe = false)
    (hstart : s.pins.start = true) : s.loadEdge = { s with runState := .run } := by
  simp [State.loadEdge, hwe, hload, hstart]

/-- Settles O14: the write is `State.loadEdge_of_write` in range and `State.loadEdge_of_fault` above. -/
theorem loaderWritesOneByte : Obligations.LoaderWritesOneByte := by
  unfold Obligations.LoaderWritesOneByte
  intro s hload hrst hwe
  refine ⟨fun ha => ?inRange, fun ha => ?above⟩
  case inRange =>
    refine ⟨_, (step_of_load hrst hload).trans (congrArg _ (State.loadEdge_of_write hload hwe ha)),
      Memory.read_write_same _ _ _, rfl, rfl, rfl, ?_⟩
    have hsample : ChangesOnly (fun p => p.isEdge ∨ p.isControl ∨ p = .byte s.nextPins.ldAddr.toNat) s s.sampleInputs :=
      (ChangesOnly.sampleInputs s).mono fun _ => .inl
    exact (hsample.trans ((ChangesOnly.write _ _ _).mono fun _ h => .inr (.inr h))).trans
      ((ChangesOnly.setRunState _ _).mono fun _ h => .inr (.inl h))
  case above =>
    refine ⟨_, (step_of_load hrst hload).trans (congrArg _ (State.loadEdge_of_fault hwe ha)), State.haltedBy_raise _ _, ?_⟩
    exact ((ChangesOnly.sampleInputs s).mono fun _ => .inl).trans ((ChangesOnly.raise _ _).mono fun _ => .inr)

/-- Settles O15: `State.loadEdge_of_start`, its frame that of the sampling and of the write of RUN_STATE. -/
theorem startLeavesLoad : Obligations.StartLeavesLoad := by
  unfold Obligations.StartLeavesLoad
  intro s hload hrst hwe hstart
  refine ⟨_, (step_of_load hrst hload).trans (congrArg _ (State.loadEdge_of_start hload hwe hstart)), rfl, rfl, rfl, ?_⟩
  exact ((ChangesOnly.sampleInputs s).mono fun _ => .inl).trans ((ChangesOnly.setRunState _ _).mono fun _ => .inr)

/-! ### A run of loader writes is `load_block` (R46) -/

/-- States that differ in an edge's own pieces alone are as alike after a byte write. -/
theorem ChangesOnly.write_congr {s t : State} (h : ChangesOnly Part.isEdge s t) (a : Nat) (b : Byte) :
    ChangesOnly Part.isEdge { s with mem := Memory.write s.mem a b } { t with mem := Memory.write t.mem a b } := by
  intro p hp
  cases p with
  | byte a' =>
    have hread : Memory.read t.mem a' = Memory.read s.mem a' := h (.byte a') hp
    simp only [Part.same, Memory.read_write, hread]
  | _ => exact h _ hp

/-- States that differ in an edge's own pieces alone are as alike after the same fault entry. -/
theorem ChangesOnly.raise_congr {s t : State} (h : ChangesOnly Part.isEdge s t) (f : FaultKind) :
    ChangesOnly Part.isEdge (s.raise f) (t.raise f) := by
  intro p hp
  cases p with
  | control => exact ⟨rfl, rfl, rfl⟩
  | _ => exact h _ hp

/-- States that differ in an edge's own pieces alone are as alike after the same block store. -/
theorem ChangesOnly.storeBytes_congr {s t : State} (h : ChangesOnly Part.isEdge s t) (a : Nat) (bs : List Byte) :
    ChangesOnly Part.isEdge (s.storeBytes a bs) (t.storeBytes a bs) := by
  induction bs generalizing s t a with
  | nil => exact h
  | cons b bs ih =>
    unfold State.storeBytes
    by_cases ha : a ≤ 0xFFF
    · rw [State.memWrite_valid s a b ha, State.memWrite_valid t a b ha]
      exact ih (h.write_congr a b) (a + 1)
    · rw [State.memWrite_invalid s a b (by omega), State.memWrite_invalid t a b (by omega)]
      exact h.raise_congr _

/-- The sample of a loader write (R201). -/
theorem State.nextPins_of_loaderScript {s : State} {a : Nat} {b : Byte} {bs : List Byte} {rest : List Pins}
    (h : s.script = loaderScript a (b :: bs) ++ rest) :
    s.nextPins = { Pins.low with ldWe := true, ldAddr := BitVec.ofNat 16 a, ldData := b } ∧
      s.script.tail = loaderScript (a + 1) bs ++ rest := by
  unfold State.nextPins
  rw [h]
  exact ⟨rfl, rfl⟩

/-- R182: a machine in HALT lets the rest of a loader script pass. -/
theorem reaches_of_halt_of_loaderScript {s : State} {bs : List Byte} {a : Nat} {rest : List Pins}
    (hhalt : s.runState = .halt) (hscript : s.script = loaderScript a bs ++ rest) :
    ∃ t, s.reaches bs.length t ∧ t.script = rest ∧ t.config = s.config ∧ ChangesOnly Part.isEdge s t := by
  induction bs generalizing s a with
  | nil => exact ⟨s, (State.reaches_zero s s).mpr rfl, hscript, rfl, .refl _ s⟩
  | cons b bs ih =>
    obtain ⟨hpins, htail⟩ := State.nextPins_of_loaderScript hscript
    have hstep : step s = .next s.sampleInputs := step_of_halt (congrArg Pins.rst hpins) hhalt
    obtain ⟨t, hreach, hrest, hconfig, hframe⟩ := ih (s := s.sampleInputs) hhalt htail
    exact ⟨t, (State.reaches_succ _ _ _).mpr ⟨_, hstep, hreach⟩, hrest, hconfig, (ChangesOnly.sampleInputs s).trans hframe⟩

/-- R46, R201: a machine in LOAD driven by a block's loader script does the block's store. -/
theorem reaches_of_load_of_loaderScript {s : State} {bs : List Byte} {a : Nat} {rest : List Pins}
    (hload : s.runState = .load) (ha : a ≤ 0xFFFF) (hscript : s.script = loaderScript a bs ++ rest) :
    ∃ t, s.reaches bs.length t ∧ t.script = rest ∧ t.config = s.config ∧ ChangesOnly Part.isEdge (s.storeBytes a bs) t := by
  induction bs generalizing s a with
  | nil => exact ⟨s, (State.reaches_zero s s).mpr rfl, hscript, rfl, .refl _ s⟩
  | cons b bs ih =>
    obtain ⟨hpins, htail⟩ := State.nextPins_of_loaderScript hscript
    have hrst : s.nextPins.rst = false := congrArg Pins.rst hpins
    have hstart : s.sampleInputs.pins.start = false := congrArg Pins.start hpins
    have hwe : s.sampleInputs.pins.ldWe = true := congrArg Pins.ldWe hpins
    have hdata : s.sampleInputs.pins.ldData = b := congrArg Pins.ldData hpins
    have hword : s.sampleInputs.pins.ldAddr = BitVec.ofNat 16 a := congrArg Pins.ldAddr hpins
    have haddr : s.sampleInputs.pins.ldAddr.toNat = a := by rw [hword]; exact Nat.mod_eq_of_lt (by omega)
    have hstep := step_of_load hrst hload
    unfold State.storeBytes
    by_cases hvalid : a ≤ 0xFFF
    · have hedge : s.sampleInputs.loadEdge = { s.sampleInputs with mem := Memory.write s.mem a b, runState := .load } := by
        rw [State.loadEdge_of_write (s := s.sampleInputs) hload hwe (by omega), haddr, hdata, hstart]; rfl
      rw [State.memWrite_valid s a b hvalid]
      obtain ⟨t, hreach, hrest, hconfig, hframe⟩ := ih (s := s.sampleInputs.loadEdge) (a := a + 1) (by rw [hedge]) (by omega)
        (by rw [hedge]; exact htail)
      have hsame : ChangesOnly Part.isEdge { s with mem := Memory.write s.mem a b } s.sampleInputs.loadEdge := by
        rw [hedge, ← hload]
        exact (ChangesOnly.sampleInputs s).write_congr a b
      exact ⟨t, (State.reaches_succ _ _ _).mpr ⟨_, hstep, hreach⟩, hrest, by rw [hconfig, hedge]; rfl,
        (hsame.storeBytes_congr (a + 1) bs).trans hframe⟩
    · have hedge : s.sampleInputs.loadEdge = s.sampleInputs.raise (.segmentationFault (BitVec.ofNat 16 a)) := by
        rw [State.loadEdge_of_fault hwe (by omega), hword]
      rw [State.memWrite_invalid s a b (by omega)]
      obtain ⟨t, hreach, hrest, hconfig, hframe⟩ :=
        reaches_of_halt_of_loaderScript (s := s.sampleInputs.loadEdge) (by rw [hedge]; rfl) (by rw [hedge]; exact htail)
      have hsame := (ChangesOnly.sampleInputs s).raise_congr (.segmentationFault (BitVec.ofNat 16 a))
      exact ⟨t, (State.reaches_succ _ _ _).mpr ⟨_, hstep, hreach⟩, hrest, by rw [hconfig, hedge]; rfl,
        hsame.trans (hedge ▸ hframe)⟩

/-- Settles O16: `reaches_of_load_of_loaderScript`; `load_block` is the block store. -/
theorem loaderPortIsLoadBlock : Obligations.LoaderPortIsLoadBlock := by
  unfold Obligations.LoaderPortIsLoadBlock
  intro s data start rest hload hstart hscript
  exact reaches_of_load_of_loaderScript hload hstart hscript

end Sys2Proof.Machine

/-! PROOFS. The invariants of a clock edge (10_state.md R14, R20, R21; 44_display.md R153): memory, fault latch and redraw, and the
bound of PC and of the return addresses. -/

namespace Sys2Proof.Machine

/-! ### Memory, fault latch and redraw -/

theorem State.LatchInv.of_same {s t : State} (h : Part.control.same s t) (hs : s.LatchInv) : t.LatchInv := by
  obtain ⟨hrun, hcode, hinfo⟩ := h
  unfold State.LatchInv
  rw [hrun, hcode, hinfo]
  exact hs

/-- A fault that can be raised leaves a coherent latch (R170 to R178). -/
theorem State.latchInv_raise (s : State) {f : FaultKind} (hf : f.Raisable) : (s.raise f).LatchInv := by
  cases f with
  | invalidAddress | invalidRegister | programLoadError => exact hf.elim
  | segmentationFault addr => exact ⟨by simp [FaultKind.code], by simp [FaultKind.code], by simp [FaultKind.code], fun _ => hf⟩
  | _ => simp [State.LatchInv, FaultKind.code, FaultKind.info]

/-- RUN_STATE may leave LOAD for RUN: neither is HALT, and redraw may be high in RUN. -/
theorem State.Inv.startRun {s : State} (h : s.Inv) (hload : s.runState = .load) :
    ({ s with runState := .run } : State).Inv := by
  obtain ⟨hwf, ⟨hhalt, hlatch⟩, -⟩ := h
  refine ⟨hwf, ⟨?_, hlatch⟩, fun _ => rfl⟩
  rw [hload] at hhalt
  exact iff_of_false RunState.noConfusion fun hcode => absurd (hhalt.mpr hcode) (by decide)

/-- A fault entry keeps the invariant where redraw is low. -/
theorem State.inv_raise {s : State} {f : FaultKind} (hwf : Memory.wf s.mem) (hred : s.redraw = false) (hf : f.Raisable) :
    (s.raise f).Inv :=
  ⟨hwf, State.latchInv_raise s hf, fun h => absurd (hred.symm.trans h) (by decide)⟩

theorem State.Inv.loadEdge {s : State} (h : s.Inv) (hred : s.redraw = false) : s.loadEdge.Inv := by
  obtain ⟨hwf, hlatch, hrun⟩ := h
  obtain ⟨m, s1, hm, hwrite, hedge⟩ := State.loadEdge_shape s
  have hs1 : s1.Inv := by
    obtain rfl | ⟨haddr, rfl⟩ := hwrite
    · exact ⟨hm hwf, hlatch, hrun⟩
    · exact State.inv_raise (hm hwf) hred haddr
  rw [hedge]
  split
  case isTrue hstart => exact hs1.startRun hstart.2
  case isFalse => exact hs1

/-- An instruction run in RUN with redraw low keeps the invariant. -/
theorem Effect.keeps_inv {i : Instr} {s t : State} (h : Effect s i t) (hs : s.Inv) (hrun : s.runState = .run)
    (hred : s.redraw = false) : t.Inv := by
  obtain ⟨hwf, hlatch, -⟩ := hs
  cases h with
  | data v m _ _ hm => exact ⟨hm hwf, hlatch, fun _ => hrun⟩
  | fault v m f _ _ hm hf => exact State.inv_raise (hm hwf) hred hf
  | _ => exact ⟨hwf, hlatch, fun _ => hrun⟩

/-- Settles O58: no byte differs from its reset contents, no fault is latched, redraw is low. -/
theorem resetMeetsInv : Obligations.ResetMeetsInv := by
  unfold Obligations.ResetMeetsInv
  exact ⟨State.reset_mem_wf, by simp [State.LatchInv, State.reset], fun h => by cases h⟩

/-- Settles O57: over `step_cases`; a reset by `resetMeetsInv`, a loader edge by `State.Inv.loadEdge`, every fault by
`State.inv_raise`, an executed instruction by `Effect.keeps_inv`. -/
theorem stepKeepsInv : Obligations.StepKeepsInv := by
  unfold Obligations.StepKeepsInv
  intro s t hs h
  obtain ⟨hwf, hlatch, -⟩ := hs
  have hsample : s.sampleInputs.Inv := ⟨hwf, hlatch, fun h => by cases h⟩
  have hat : s.atStep.Inv :=
    ⟨(State.atStep_mem s).symm ▸ hwf, hlatch.of_same ⟨by simp, by simp, by simp⟩, fun h => by simp at h⟩
  obtain ⟨-, rfl⟩ | ⟨-, -, rfl⟩ | ⟨-, -, rfl⟩ | ⟨-, -, -, rfl⟩ | ⟨-, -, rfl⟩ | ⟨-, hpc, rfl⟩ | ⟨-, -, -, rfl⟩ |
    ⟨⟨hrun, -⟩, i, -, hexec⟩ := step_cases s t h
  · exact resetMeetsInv
  · exact hsample.loadEdge rfl
  · exact hsample
  · exact hat
  · exact State.inv_raise hat.1 (State.atStep_redraw s) (Nat.le_refl 0x1000)
  · exact State.inv_raise hat.1 (State.atStep_redraw s) hpc
  · exact State.inv_raise hat.1 (State.atStep_redraw s) trivial
  · exact (exec_effect hexec).keeps_inv hat (by simpa using hrun) (by simp)

/-! ### PC and the return addresses (R14) -/

theorem State.PcInv.of_same {s t : State} (hpc : t.pc = s.pc) (hstack : Part.callStack.same s t) (hs : s.PcInv) : t.PcInv := by
  obtain ⟨hst, hsp⟩ := hstack
  unfold State.PcInv
  rw [hpc, hst, hsp]
  exact hs

/-- An instruction that was fetched, so that the post-fetch PC lies between 2 and 0x1000, keeps the bound. -/
theorem Effect.keeps_pcInv {i : Instr} {s t : State} (h : Effect s i t) (hs : s.PcInv) (hlo : 2 ≤ s.pc.toNat)
    (hhi : s.pc.toNat ≤ 0x1000) : t.PcInv := by
  obtain ⟨hpc, hstack⟩ := hs
  cases h with
  | jump a _ ha =>
    refine ⟨?_, hstack⟩
    obtain ha | rfl | rfl := ha
    · exact ha
    · simp only [State.setPc_pc]; bv_omega
    · simp only [State.setPc_pc]; bv_omega
  | call nnn hroom =>
    refine ⟨by rw [State.setPc_pc, toNat_zextAddr]; omega, fun k hk => ?_⟩
    by_cases htop : s.sp.val = k.val
    · simpa [htop] using hhi
    · have hbelow : k.val < s.sp.val := by have : k.val < s.sp.val + 1 := hk; omega
      simpa [htop] using hstack k hbelow
  | ret k hsp => exact ⟨(hstack k (by omega)).trans (by decide), fun j hj => hstack j (by have : j.val < k.val := hj; omega)⟩
  | _ => exact ⟨hpc, hstack⟩

/-- Settles O60: PC is 0x0200 and the stack holds no entry. -/
theorem resetMeetsPcInv : Obligations.ResetMeetsPcInv := by
  unfold Obligations.ResetMeetsPcInv
  exact ⟨by decide, fun k hk => absurd hk (Nat.not_lt_zero _)⟩

/-- Settles O59: over `step_cases`; only an advance of PC past a fetched word and the instruction itself, by
`Effect.keeps_pcInv`, move PC. -/
theorem stepKeepsPcInv : Obligations.StepKeepsPcInv := by
  unfold Obligations.StepKeepsPcInv
  intro s t hs h
  have hat : s.atStep.PcInv := hs.of_same (State.atStep_pc s) ⟨State.atStep_stack s, State.atStep_sp s⟩
  have hadvance : s.pc.toNat + 1 ≤ 0xFFF → (s.pc + 2).toNat = s.pc.toNat + 2 := fun _ => by bv_omega
  have hnext : s.pc.toNat + 1 ≤ 0xFFF → (s.atStep.setPc (s.pc + 2)).PcInv := fun hpc =>
    ⟨by rw [State.setPc_pc, hadvance hpc]; omega, hat.2⟩
  obtain ⟨-, rfl⟩ | ⟨-, -, rfl⟩ | ⟨-, -, rfl⟩ | ⟨-, -, -, rfl⟩ | ⟨-, -, rfl⟩ | ⟨-, -, rfl⟩ | ⟨-, hpc, -, rfl⟩ |
    ⟨-, i, ⟨hpc, -⟩, hexec⟩ := step_cases s t h
  · exact resetMeetsPcInv
  · have hframe := ChangesOnly.loadEdge s.sampleInputs
    have hsample : s.sampleInputs.PcInv := hs
    exact hsample.of_same (hframe .pc (by simp [Part.isControl])) (hframe .callStack (by simp [Part.isControl]))
  · exact hs
  · exact hat
  · exact hat
  · exact hat
  · exact hnext hpc
  · have hpost := hadvance hpc
    exact (exec_effect hexec).keeps_pcInv (hnext hpc) (by rw [State.setPc_pc]; omega) (by rw [State.setPc_pc]; omega)

end Sys2Proof.Machine

/-! PROOFS. Decode and encode (30_encoding.md R64 to R69): they are each other's inverse under SYS_POLICY = nop, each word means the
row it matches, and the refused words are those of R66's table. -/

namespace Sys2Proof

/-! ### Words by their fields -/

theorem eq_encodeNnn {w : Word} {op : Nibble} (hop : fieldOp w = op) : encodeNnn op (fieldNnn w) = w :=
  hop ▸ encodeNnn_fields w

theorem eq_encodeXkk {w : Word} {op : Nibble} {kk : Byte} (hop : fieldOp w = op) (hkk : fieldKk w = kk) :
    encodeXkk op (fieldX w) kk = w :=
  hop ▸ hkk ▸ encodeXkk_fields w

theorem eq_encodeXyn {w : Word} {op n : Nibble} (hop : fieldOp w = op) (hn : fieldN w = n) :
    encodeXyn op (fieldX w) (fieldY w) n = w :=
  hop ▸ hn ▸ encodeXyn_fields w

/-- R69: every instruction is the meaning of a word but SYS at the addresses of CLS and RET. -/
theorem Instr.wellFormed_of_encode_ne {i : Instr} (hsys : ∀ nnn, i = .sys nnn → encode i ≠ 0x00E0 ∧ encode i ≠ 0x00EE) :
    i.wellFormed = true := by
  cases i with
  | sys nnn =>
    obtain ⟨hcls, hret⟩ := hsys nnn rfl
    have hE0 : nnn ≠ 0x0E0#12 := fun h => hcls (h ▸ rfl)
    have hEE : nnn ≠ 0x0EE#12 := fun h => hret (h ▸ rfl)
    simp [Instr.wellFormed, hE0, hEE]
  | _ => rfl

/-! ### Encode, then decode -/

/-- R69: the word of a well-formed SYS is neither that of CLS nor that of RET. -/
theorem encode_sys_ne {nnn : Addr12} (h : (Instr.sys nnn).wellFormed = true) :
    encode (.sys nnn) ≠ 0x00E0 ∧ encode (.sys nnn) ≠ 0x00EE := by
  have hfield : fieldNnn (encode (.sys nnn)) = nnn := fieldNnn_encodeNnn 0x0 nnn
  simp only [Instr.wellFormed, Bool.and_eq_true, bne_iff_ne] at h
  obtain ⟨hE0, hEE⟩ := h
  exact ⟨fun heq => hE0 (hfield.symm.trans (congrArg fieldNnn heq)), fun heq => hEE (hfield.symm.trans (congrArg fieldNnn heq))⟩

/-- Settles O1: SYS by the last answer of family 0x0, every other instruction by `decodesTo_encode`. -/
theorem encodeThenDecode : Obligations.EncodeThenDecode := by
  unfold Obligations.EncodeThenDecode
  intro i hi
  by_cases hsys : ∃ nnn, i = .sys nnn
  · obtain ⟨nnn, rfl⟩ := hsys
    obtain ⟨hcls, hret⟩ := encode_sys_ne hi
    have hop : fieldOp (encode (.sys nnn)) = 0x0 := fieldOp_encodeNnn 0x0 nnn
    rw [decode_of_fieldOp_zero .nop hop, decodeFamily0_nop hcls hret, encode, fieldNnn_encodeNnn]
  · exact Machine.decodesTo_encode (fun nnn h => hsys ⟨nnn, h⟩) .nop

/-! ### Decode, then encode -/

/-- What is decoded in family 0x0 under the policy `nop`. -/
theorem encode_of_decodeFamily0 {w : Word} {i : Instr} (hop : fieldOp w = 0x0) (h : decodeFamily0 .nop w = .ok i) :
    encode i = w := by
  unfold decodeFamily0 at h
  split at h
  case isTrue hw => cases h; exact hw.symm
  case isFalse =>
    split at h
    case isTrue hw => cases h; exact hw.symm
    case isFalse => cases h; exact eq_encodeNnn hop

theorem fieldN_eq_of_toNat {w : Word} {k : Nat} (h : (fieldN w).toNat = k) : fieldN w = BitVec.ofNat 4 k := by
  rw [← h, BitVec.ofNat_toNat, BitVec.setWidth_eq]

theorem encode_of_decodeFamily8 {w : Word} {i : Instr} (hop : fieldOp w = 0x8) (h : decodeFamily8 w = .ok i) :
    encode i = w := by
  unfold decodeFamily8 at h
  split at h
  case h_10 => cases h
  all_goals
    next hn => cases h; exact eq_encodeXyn hop (fieldN_eq_of_toNat hn)

theorem encode_of_decodeFamilyE {w : Word} {i : Instr} (hop : fieldOp w = 0xE) (h : decodeFamilyE w = .ok i) :
    encode i = w := by
  unfold decodeFamilyE at h
  split_ifs at h <;> cases h
  all_goals
    next hkk => exact eq_encodeXkk hop hkk

theorem encode_of_decodeFamilyF {w : Word} {i : Instr} (hop : fieldOp w = 0xF) (h : decodeFamilyF w = .ok i) :
    encode i = w := by
  unfold decodeFamilyF at h
  split_ifs at h <;> cases h
  all_goals
    next hkk => exact eq_encodeXkk hop hkk

theorem fieldOp_eq_of_toNat {w : Word} {k : Nat} (h : (fieldOp w).toNat = k) : fieldOp w = BitVec.ofNat 4 k := by
  rw [← h, BitVec.ofNat_toNat, BitVec.setWidth_eq]

/-- R65: the encoder gives back the word an instruction was decoded from. -/
theorem encode_of_decode {w : Word} {i : Instr} (h : decode .nop w = .ok i) : encode i = w := by
  unfold decode at h
  split at h
  case h_1 hop => exact encode_of_decodeFamily0 (fieldOp_eq_of_toNat hop) h
  case h_9 hop => exact encode_of_decodeFamily8 (fieldOp_eq_of_toNat hop) h
  case h_15 hop => exact encode_of_decodeFamilyE (fieldOp_eq_of_toNat hop) h
  case h_16 => exact encode_of_decodeFamilyF (fieldOp_eq_of_toNat (k := 0xF) (by have := (fieldOp w).isLt; grind)) h
  case h_6 | h_10 =>
    next hop =>
      split at h
      case isTrue hn => cases h; exact eq_encodeXyn (fieldOp_eq_of_toNat hop) hn
      case isFalse => cases h
  case h_14 hop => cases h; exact eq_encodeXyn (fieldOp_eq_of_toNat hop) (nibbleOfReg_regOfNibble _).symm
  case h_2 | h_3 | h_11 | h_12 => next hop => cases h; exact eq_encodeNnn (fieldOp_eq_of_toNat hop)
  case h_4 | h_5 | h_7 | h_8 | h_13 => next hop => cases h; exact eq_encodeXkk (fieldOp_eq_of_toNat hop) rfl

/-- Settles O2: the word by `encode_of_decode`; a decoded SYS is well formed, since the words of CLS and RET decode to those. -/
theorem decodeThenEncode : Obligations.DecodeThenEncode := by
  unfold Obligations.DecodeThenEncode
  intro w i h
  have hw : encode i = w := encode_of_decode h
  refine ⟨hw, Instr.wellFormed_of_encode_ne fun nnn hi => ⟨fun hcls => ?_, fun hret => ?_⟩⟩
  · have hdec : decode .nop 0x00E0 = .ok (.sys nnn) := by rw [← hcls, hw, ← hi, h]
    cases hdec
  · have hdec : decode .nop 0x00EE = .ok (.sys nnn) := by rw [← hret, hw, ← hi, h]
    cases hdec

/-! ### The row a word matches (R65) -/

/-- The mask of a row as a function of its match: no two rows share a match, so it is one. -/
def maskOfMatch (m : Word) : Word :=
  if m = 0x00E0 ∨ m = 0x00EE then 0xFFFF
  else if fieldOp m = 0x5 ∨ fieldOp m = 0x8 ∨ fieldOp m = 0x9 then 0xF00F
  else if fieldOp m = 0xE ∨ fieldOp m = 0xF then 0xF0FF
  else 0xF000

theorem rowMask_eq_maskOfMatch (i : Instr) : rowMask i = maskOfMatch (rowMatch i) := by
  cases i <;> simp only [rowMask, rowMatch] <;> decide

/-- R65: the word of every instruction matches its own row. -/
theorem encode_and_rowMask : ∀ i : Instr, encode i &&& rowMask i = rowMatch i
  | .sys nnn => Laws.FixedBits.sys nnn
  | .cls => Laws.FixedBits.cls
  | .ret => Laws.FixedBits.ret
  | .jp nnn => Laws.FixedBits.jp nnn
  | .call nnn => Laws.FixedBits.call nnn
  | .seByte x kk => Laws.FixedBits.seByte x kk
  | .sneByte x kk => Laws.FixedBits.sneByte x kk
  | .seReg x y => Laws.FixedBits.seReg x y
  | .ldByte x kk => Laws.FixedBits.ldByte x kk
  | .addByte x kk => Laws.FixedBits.addByte x kk
  | .ldReg x y => Laws.FixedBits.ldReg x y
  | .orReg x y => Laws.FixedBits.orReg x y
  | .andReg x y => Laws.FixedBits.andReg x y
  | .xorReg x y => Laws.FixedBits.xorReg x y
  | .addReg x y => Laws.FixedBits.addReg x y
  | .subReg x y => Laws.FixedBits.subReg x y
  | .shr x y => Laws.FixedBits.shr x y
  | .subnReg x y => Laws.FixedBits.subnReg x y
  | .shl x y => Laws.FixedBits.shl x y
  | .sneReg x y => Laws.FixedBits.sneReg x y
  | .ldI nnn => Laws.FixedBits.ldI nnn
  | .jpV0 nnn => Laws.FixedBits.jpV0 nnn
  | .rnd x kk => Laws.FixedBits.rnd x kk
  | .drw x y n => Laws.FixedBits.drw x y n
  | .skp x => Laws.FixedBits.skp x
  | .sknp x => Laws.FixedBits.sknp x
  | .ldVxDT x => Laws.FixedBits.ldVxDT x
  | .ldVxK x => Laws.FixedBits.ldVxK x
  | .ldDTVx x => Laws.FixedBits.ldDTVx x
  | .ldSTVx x => Laws.FixedBits.ldSTVx x
  | .addI x => Laws.FixedBits.addI x
  | .ldF x => Laws.FixedBits.ldF x
  | .ldB x => Laws.FixedBits.ldB x
  | .storeRegs x => Laws.FixedBits.storeRegs x
  | .loadRegs x => Laws.FixedBits.loadRegs x

theorem fieldOp_ofNat (n : Nat) : fieldOp (BitVec.ofNat 16 n) = BitVec.ofNat 4 (n / 4096) := by
  apply BitVec.eq_of_toNat_eq
  rw [fieldOp, toNat_extractLsb', BitVec.toNat_ofNat, BitVec.toNat_ofNat]; omega

theorem fieldN_ofNat (n : Nat) : fieldN (BitVec.ofNat 16 n) = BitVec.ofNat 4 n := by
  apply BitVec.eq_of_toNat_eq
  rw [fieldN, toNat_extractLsb', BitVec.toNat_ofNat, BitVec.toNat_ofNat]; omega

theorem fieldKk_ofNat (n : Nat) : fieldKk (BitVec.ofNat 16 n) = BitVec.ofNat 8 n := by
  apply BitVec.eq_of_toNat_eq
  rw [fieldKk, toNat_extractLsb', BitVec.toNat_ofNat, BitVec.toNat_ofNat]; omega

theorem fieldOp_and (w m : Word) : fieldOp (w &&& m) = fieldOp w &&& fieldOp m := BitVec.extractLsb'_and

theorem fieldN_and (w m : Word) : fieldN (w &&& m) = fieldN w &&& fieldN m := BitVec.extractLsb'_and

theorem fieldKk_and (w m : Word) : fieldKk (w &&& m) = fieldKk w &&& fieldKk m := BitVec.extractLsb'_and

/-- Every mask keeps `op`. -/
theorem fieldOp_of_row {w : Word} {j : Instr} (h : w &&& rowMask j = rowMatch j) : fieldOp w = fieldOp (rowMatch j) := by
  have hmask : fieldOp (rowMask j) = BitVec.allOnes 4 := by cases j <;> simp only [rowMask] <;> decide
  rw [← h, fieldOp_and, hmask, BitVec.and_allOnes]

/-- The mask F00F keeps `n`. -/
theorem fieldN_of_row {w : Word} {j : Instr} (h : w &&& rowMask j = rowMatch j) (hmask : rowMask j = 0xF00F) :
    fieldN w = fieldN (rowMatch j) := by
  have hones : fieldN 0xF00F = BitVec.allOnes 4 := by decide
  rw [← h, hmask, fieldN_and, hones, BitVec.and_allOnes]

/-- The mask F0FF keeps `kk`. -/
theorem fieldKk_of_row {w : Word} {j : Instr} (h : w &&& rowMask j = rowMatch j) (hmask : rowMask j = 0xF0FF) :
    fieldKk w = fieldKk (rowMatch j) := by
  have hones : fieldKk 0xF0FF = BitVec.allOnes 8 := by decide
  rw [← h, hmask, fieldKk_and, hones, BitVec.and_allOnes]

/-- R65: a word that matches a row decodes to an instruction of that row; in family 0x0 CLS and RET come before SYS. -/
theorem decode_of_row {w : Word} {j : Instr} (h : w &&& rowMask j = rowMatch j)
    (hsys : rowMatch j = 0x0000 → w ≠ 0x00E0 ∧ w ≠ 0x00EE) : ∃ i, decode .nop w = .ok i ∧ rowMatch i = rowMatch j := by
  have hop := fieldOp_of_row h
  cases j with
  | sys nnn =>
    obtain ⟨hcls, hret⟩ := hsys rfl
    have hzero : fieldOp w = 0x0 := by simpa [rowMatch, fieldOp_ofNat] using hop
    exact ⟨_, (decode_of_fieldOp_zero .nop hzero).trans (decodeFamily0_nop hcls hret), rfl⟩
  | cls | ret =>
    obtain rfl := (BitVec.and_allOnes (x := w)).symm.trans h
    exact ⟨_, rfl, rfl⟩
  | jp | call | seByte | sneByte | ldByte | addByte | ldI | jpV0 | rnd | drw =>
    simp only [rowMatch, BitVec.ofNat_eq_ofNat, fieldOp_ofNat, Nat.reduceDiv] at hop
    simp [decode, hop, rowMatch]
  | seReg | ldReg | orReg | andReg | xorReg | addReg | subReg | shr | subnReg | shl | sneReg =>
    have hn := fieldN_of_row h rfl
    simp only [rowMatch, BitVec.ofNat_eq_ofNat, fieldOp_ofNat, fieldN_ofNat, Nat.reduceDiv, BitVec.reduceOfNat] at hop hn
    simp [decode, decodeFamily8, hop, hn, rowMatch]
  | skp | sknp | ldVxDT | ldVxK | ldDTVx | ldSTVx | addI | ldF | ldB | storeRegs | loadRegs =>
    have hkk := fieldKk_of_row h rfl
    simp only [rowMatch, BitVec.ofNat_eq_ofNat, fieldOp_ofNat, fieldKk_ofNat, Nat.reduceDiv, BitVec.reduceOfNat] at hop hkk
    simp [decode, decodeFamilyE, decodeFamilyF, hop, hkk, rowMatch]

/-- Settles O3: `decode_of_row`; and back, a decoded word is the encoder's, which matches its own row, and no two rows share a
match. -/
theorem wordDecodesToTheRowItMatches : Obligations.WordDecodesToTheRowItMatches := by
  unfold Obligations.WordDecodesToTheRowItMatches
  intro w j hsys
  refine ⟨fun h => decode_of_row h hsys, fun ⟨i, hdec, hrow⟩ => ?_⟩
  have hmask : rowMask j = rowMask i := by rw [rowMask_eq_maskOfMatch, ← hrow, ← rowMask_eq_maskOfMatch]
  rw [hmask, ← hrow, ← encode_of_decode hdec, encode_and_rowMask]

/-! ### The words that are refused (R66) -/

theorem decodeFamily0_error {p : SysPolicy} {w : Word} {e : DecodeError} (h : decodeFamily0 p w = .error e) :
    e = .invalidInstruction w := by
  unfold decodeFamily0 at h
  split_ifs at h
  cases p with
  | nop => cases h
  | invalid => cases h; rfl

theorem decodeFamily8_error {w : Word} {e : DecodeError} (h : decodeFamily8 w = .error e) : e = .invalidInstruction w := by
  unfold decodeFamily8 at h
  split at h <;> cases h
  rfl

theorem decodeFamilyE_error {w : Word} {e : DecodeError} (h : decodeFamilyE w = .error e) : e = .invalidInstruction w := by
  unfold decodeFamilyE at h
  split_ifs at h
  cases h; rfl

theorem decodeFamilyF_error {w : Word} {e : DecodeError} (h : decodeFamilyF w = .error e) : e = .invalidInstruction w := by
  unfold decodeFamilyF at h
  split_ifs at h
  cases h; rfl

/-- R64: decoding fails in one way only, under either policy. -/
theorem decode_error {p : SysPolicy} {w : Word} {e : DecodeError} (h : decode p w = .error e) : e = .invalidInstruction w := by
  unfold decode at h
  split at h
  case h_1 => exact decodeFamily0_error h
  case h_9 => exact decodeFamily8_error h
  case h_15 => exact decodeFamilyE_error h
  case h_16 => exact decodeFamilyF_error h
  case h_6 | h_10 =>
    split_ifs at h
    cases h; rfl
  all_goals cases h

/-- R66: the trailing nibbles that family 0x8 refuses. -/
theorem decodeFamily8_refuses_iff (w : Word) :
    decodeFamily8 w = .error (.invalidInstruction w) ↔ fieldN w ∈ [0x8, 0x9, 0xA, 0xB, 0xC, 0xD, 0xF] := by
  unfold decodeFamily8
  split
  case h_10 =>
    have hlt := (fieldN w).isLt
    refine iff_of_true rfl ?_
    simp only [List.mem_cons, List.not_mem_nil, or_false, BitVec.toNat_eq]
    grind
  all_goals
    next hn => rw [fieldN_eq_of_toNat hn]; exact iff_of_false (by simp) (by decide)

/-- R66: the trailing bytes that family 0xE refuses. -/
theorem decodeFamilyE_refuses_iff (w : Word) :
    decodeFamilyE w = .error (.invalidInstruction w) ↔ fieldKk w ≠ 0x9E ∧ fieldKk w ≠ 0xA1 := by
  unfold decodeFamilyE
  split_ifs <;> simp_all

/-- R66: the trailing bytes that family 0xF refuses. -/
theorem decodeFamilyF_refuses_iff (w : Word) :
    decodeFamilyF w = .error (.invalidInstruction w) ↔
      fieldKk w ∉ [0x07, 0x0A, 0x15, 0x18, 0x1E, 0x29, 0x33, 0x55, 0x65] := by
  unfold decodeFamilyF
  split_ifs <;> simp_all

/-- R66: family by family, the words that are refused under the policy `nop`; family 0x0 refuses none. -/
theorem decode_refuses_iff (w : Word) : decode .nop w = .error (.invalidInstruction w) ↔
    (fieldOp w = 0x5 ∧ fieldN w ≠ 0x0) ∨
    (fieldOp w = 0x8 ∧ fieldN w ∈ [0x8, 0x9, 0xA, 0xB, 0xC, 0xD, 0xF]) ∨
    (fieldOp w = 0x9 ∧ fieldN w ≠ 0x0) ∨
    (fieldOp w = 0xE ∧ fieldKk w ≠ 0x9E ∧ fieldKk w ≠ 0xA1) ∨
    (fieldOp w = 0xF ∧ fieldKk w ∉ [0x07, 0x0A, 0x15, 0x18, 0x1E, 0x29, 0x33, 0x55, 0x65]) := by
  rw [← decodeFamily8_refuses_iff, ← decodeFamilyE_refuses_iff, ← decodeFamilyF_refuses_iff]
  unfold decode
  split
  case h_1 hop =>
    have h0 : decodeFamily0 .nop w ≠ .error (.invalidInstruction w) := by
      unfold decodeFamily0
      split_ifs <;> simp
    simp [fieldOp_eq_of_toNat hop, h0]
  case h_16 =>
    have hop : fieldOp w = 0xF := fieldOp_eq_of_toNat (k := 0xF) (by have := (fieldOp w).isLt; grind)
    simp [hop]
  all_goals
    next hop => simp [fieldOp_eq_of_toNat hop]

/-- Settles O4: totality by `decode_error`, the table by `decode_refuses_iff`. -/
theorem invalidWordsAreExactlyTheListed : Obligations.InvalidWordsAreExactlyTheListed := by
  unfold Obligations.InvalidWordsAreExactlyTheListed
  refine ⟨fun p w => ?_, decode_refuses_iff⟩
  cases h : decode p w with
  | ok i => exact .inl ⟨i, rfl⟩
  | error e => exact .inr (congrArg _ (decode_error h))

/-- Settles O6: nine closed words, decoded. -/
theorem decodeReadsTheSpecsWords : Obligations.DecodeReadsTheSpecsWords := by
  unfold Obligations.DecodeReadsTheSpecsWords
  decide

end Sys2Proof

/-! PROOFS. Round trips over sequences of operations: a fetch after stores (20_memory.md R55), a load after a store
(43_index_memory.md R144, R145), a sprite drawn twice (44_display.md R150), and returns after calls (41_control_flow.md R101,
R102). -/

namespace Sys2Proof.Machine

/-! ### Fetch after stores -/

/-- R43: a byte write that succeeds was in range, and stores its byte. -/
theorem State.memWrite_ok {s t : State} {a : Nat} {b : Byte} (h : s.memWrite a b = .ok t) :
    a ≤ 0xFFF ∧ t = { s with mem := Memory.write s.mem a b } := by
  by_cases ha : a ≤ 0xFFF
  · rw [State.memWrite_valid s a b ha] at h
    cases h
    exact ⟨ha, rfl⟩
  · rw [State.memWrite_invalid s a b (by omega)] at h
    cases h

/-- Settles O22: both bytes at PC are in range, and the fetch reads what the two writes left there. -/
theorem fetchSeesStores : Obligations.FetchSeesStores := by
  unfold Obligations.FetchSeesStores
  intro s t u hi lo hhi hlo
  obtain ⟨-, rfl⟩ := State.memWrite_ok hhi
  obtain ⟨hpc, rfl⟩ := State.memWrite_ok hlo
  rw [State.fetch_eq, if_pos hpc]
  simp [State.wordAtPc, Memory.read_write]

/-! ### Load after store -/

/-- Settles O35: the block fits, so the store leaves register `k` at `I + k` and the load reads it there. -/
theorem storeThenLoadRestores : Obligations.StoreThenLoadRestores := by
  unfold Obligations.StoreThenLoadRestores
  intro s t t' u x hfit hstore hi hmem hload k hk
  obtain ⟨m, -, hread, -, hanswer⟩ := execStoreRegs_shape x s
  cases (exec_block_of_fits (i := .storeRegs x) hanswer hfit).symm.trans hstore
  obtain ⟨v, hget, hanswer'⟩ := execLoadRegs_shape x t'
  have hi' : t'.i.toNat = s.i.toNat := congrArg BitVec.toNat hi
  cases (exec_block_of_fits (i := .loadRegs x) hanswer' (hi' ▸ hfit)).symm.trans hload
  have hvalid : s.i.toNat + k.val ≤ 0xFFF := le_trans (Nat.add_le_add_left hk _) hfit
  rw [hget k, hi', if_pos ⟨hk, hvalid⟩, hmem]
  exact hread k hk hvalid

/-! ### A sprite drawn twice -/

/-- A completed draw leaves the sprite's bytes, so the next draw reads the same rows. -/
theorem State.spriteAt_finishDraw (s : State) (p : Plot) (n : Nat) : (s.finishDraw p).spriteAt n = s.spriteAt n := rfl

/-- Settles O37: both draws plot the same rows at the same origin; XOR with a bit twice is no change, and a pixel that the first draw
turned on lies under a sprite bit. -/
theorem drawTwiceRestores : Obligations.DrawTwiceRestores := by
  unfold Obligations.DrawTwiceRestores
  intro s t u x y n hx hy hfit hfirst hsecond
  cases (exec_drw_completes x y hfit).symm.trans hfirst
  cases (exec_drw_completes x y (s := s.finishDraw _) hfit).symm.trans hsecond
  rw [State.spriteAt_finishDraw, State.getV_finishDraw, if_neg hx, State.getV_finishDraw, if_neg hy]
  refine ⟨Framebuffer.ext_get _ _ fun px py => ?pixels, fun ⟨px, py, hoff, hon⟩ => ?collision⟩
  case pixels => simp [State.finishDraw, plotRows_get]
  case collision =>
    have hbit : spriteBit ((s.getV x).toNat % 64) ((s.getV y).toNat % 32) (s.spriteAt n) px py = true := by
      simpa [State.finishDraw, plotRows_get, hoff] using hon
    rw [State.getV_finishDraw_regF, (plotRows_collides_from_clear _ _ _ _).mpr ⟨px, py, hon, hbit⟩]
    rfl

/-! ### Returns after calls -/

theorem execAll_cons {i : Instr} {is : List Instr} {s t : State} (h : exec i s = .next t) :
    execAll (i :: is) s = execAll is t := by
  rw [execAll, h]

/-- One more instruction at the end of a sequence. -/
theorem execAll_concat {is : List Instr} {i : Instr} {s t u : State} (h : execAll is s = .next t)
    (hi : exec i t = .next u) : execAll (is ++ [i]) s = .next u := by
  induction is generalizing s with
  | nil =>
    obtain rfl : s = t := Host.Outcome.next.inj h
    exact execAll_cons hi
  | cons j is ih =>
    obtain ⟨s1, hj⟩ := exec_next j s
    rw [execAll_cons hj] at h
    rw [List.cons_append, execAll_cons hj, ih h]

/-- Settles O43, by induction on the calls with the laws `callPushesThePostFetchPc` and `retPopsIntoPc`: the calls after the
first return to the state it left, as far as SP, PC and the entries below SP go, and the last return pops what the first
call pushed. -/
theorem nestedCallsReturnInOrder : Obligations.NestedCallsReturnInOrder := by
  unfold Obligations.NestedCallsReturnInOrder
  intro targets
  induction targets with
  | nil => exact fun s _ => ⟨s, rfl, rfl, .refl _ s, s, rfl, rfl, rfl, fun _ _ => rfl, .refl _ s⟩
  | cons nnn targets ih =>
    intro s hfit
    rw [List.length_cons] at hfit ⊢
    have hroom : s.sp.val < 16 := by omega
    obtain ⟨-, hcall, -⟩ := callPushesThePostFetchPc s nnn
    obtain ⟨s1, hexec, hsp, -, hentries, hframe⟩ := hcall hroom
    obtain ⟨t, hcalls, hspt, hframet, u1, hrets, hspu, -, hbelow, hframeu⟩ := ih s1 (by omega)
    obtain ⟨-, hret, -⟩ := retPopsIntoPc u1
    obtain ⟨u, hexecu, hsp', hpc', hstack', hframe'⟩ := hret ⟨s.sp.val, hroom⟩ (by rw [hspu, hsp])
    refine ⟨t, (execAll_cons hexec).trans hcalls, by omega, hframe.trans hframet, u, ?_, Fin.ext hsp', ?pc, fun k hk => ?below,
      (hframe.trans hframeu).trans hframe'⟩
    · rw [List.replicate_succ']
      exact execAll_concat hrets hexecu
    case pc =>
      have htop : u1.stack[s.sp.val] = s1.stack[s.sp.val] := hbelow ⟨s.sp.val, hroom⟩ (by simp only; omega)
      have hpushed := hentries ⟨s.sp.val, hroom⟩
      rw [if_pos rfl] at hpushed
      exact (hpc'.trans htop).trans hpushed
    case below =>
      rw [hstack', hbelow k (by omega), hentries k, if_neg (by omega)]

end Sys2Proof.Machine

/-! PROOFS. Whole clock edges (40_fetch_decode.md R80 to R84, 60_exceptions.md R185 to R187, 70_reset_and_hazards.md R204 to R209): the
step with its tick, DT over an edge and over a run, how a run ends, and the samples of a run. -/

namespace Sys2Proof.Machine

/-! ### What an edge does to the model's own fields -/

@[simp] theorem State.atStep_script (s : State) : s.atStep.script = s.script.tail := by
  unfold State.atStep; split <;> simp

@[simp] theorem State.atStep_cycle (s : State) : s.atStep.cycle = s.cycle + 1 := by
  unfold State.atStep; split <;> simp

/-- Log 2: every edge uses up one sample of the script and counts itself. -/
theorem step_advances {s t : State} (h : step s = .next t) : t.script = s.script.tail ∧ t.cycle = s.cycle + 1 := by
  have hat : s.atStep.script = s.script.tail ∧ s.atStep.cycle = s.cycle + 1 := ⟨s.atStep_script, s.atStep_cycle⟩
  obtain ⟨-, rfl⟩ | ⟨-, -, rfl⟩ | ⟨-, -, rfl⟩ | ⟨-, -, -, rfl⟩ | ⟨-, -, rfl⟩ | ⟨-, -, rfl⟩ | ⟨-, -, -, rfl⟩ |
    ⟨-, i, -, hexec⟩ := step_cases s t h
  · exact ⟨rfl, rfl⟩
  · obtain ⟨-, -, hscript, hcycle⟩ := ChangesOnly.loadEdge s.sampleInputs .platform (by simp [Part.isControl])
    exact ⟨hscript, hcycle⟩
  · exact ⟨rfl, rfl⟩
  · exact hat
  · exact hat
  · exact hat
  · exact hat
  · obtain ⟨-, -, hscript, hcycle⟩ := exec_platform hexec
    exact ⟨hscript.trans hat.1, hcycle.trans hat.2⟩

/-- Settles O7: the step is `step_of_fetches`; the state it starts from differs from `s` by the sampling and the tick. -/
theorem stepRunsTheDecodedInstruction : Obligations.StepRunsTheDecodedInstruction := by
  unfold Obligations.StepRunsTheDecodedInstruction
  intro s i h hpc hdec
  exact ⟨step_of_fetches h ⟨hpc, hdec⟩, State.toNat_atStep_dt s, State.atStep_redraw s, State.atStep_pins s,
    State.atStep_script s, State.atStep_cycle s, State.atStep_config s, ChangesOnly.atStep s⟩

/-! ### The delay timer over an edge -/

/-- R207: in RUN, an edge whose step is not LD DT, Vx leaves at most what its tick has left in DT. -/
theorem step_dt_le_atStep {s t : State} (h : step s = .next t) (hrun : s.runState = .run)
    (hno : ∀ x, ¬ (s.steps ∧ s.fetches (.ldDTVx x))) : t.dt.toNat ≤ s.atStep.dt.toNat := by
  obtain ⟨-, rfl⟩ | ⟨-, hload, -⟩ | ⟨-, hhalt, -⟩ | ⟨-, -, -, rfl⟩ | ⟨-, -, rfl⟩ | ⟨-, -, rfl⟩ | ⟨-, -, -, rfl⟩ |
    ⟨hsteps, i, hfetch, hexec⟩ := step_cases s t h
  · exact Nat.zero_le _
  · cases hrun.symm.trans hload
  · cases hrun.symm.trans hhalt
  · exact le_rfl
  · exact le_rfl
  · exact le_rfl
  · exact le_rfl
  · obtain ⟨-, -, -, hdt, -⟩ := ownersOfTheRestOfTheState i _ t hexec
    exact le_of_eq (congrArg _ (hdt fun x hi => hno x ⟨hsteps, hi ▸ hfetch⟩))

/-- Settles O52: in RUN by `step_dt_le_atStep`, whose bound a tick only lowers; a reset clears DT, and the edges of LOAD and HALT leave
it. -/
theorem delayTimerNeverRises : Obligations.DelayTimerNeverRises := by
  unfold Obligations.DelayTimerNeverRises
  intro s t h hno
  by_cases hrun : s.runState = .run
  · have hle := step_dt_le_atStep h hrun hno
    rw [State.toNat_atStep_dt] at hle
    omega
  by_cases hrst : s.nextPins.rst = true
  · cases (step_of_rst hrst).symm.trans h
    exact Nat.zero_le _
  · obtain ⟨-, -, houtside⟩ := tickDecrementsDTWhileRunning s
    obtain ⟨t', ht', hdt⟩ := houtside hrun (by simpa using hrst)
    obtain rfl : t' = t := Host.Outcome.next.inj (ht'.symm.trans h)
    exact le_of_eq (congrArg _ hdt)

/-! ### How a run ends -/

/-- Settles O54: no other edge from RUN latches code 6; of the instructions only JP raises it, and only at its own address. -/
theorem runEndsNormallyAtASelfJumpOnly : Obligations.RunEndsNormallyAtASelfJumpOnly := by
  unfold Obligations.RunEndsNormallyAtASelfJumpOnly
  intro s t hrun h
  have hback : (s.atStep.setPc (s.pc + 2)).pc - 2 = s.pc := by simp
  constructor
  · rintro ⟨hended, hcode⟩
    have hhalt : t.runState = .halt := hended
    obtain ⟨-, rfl⟩ | ⟨-, hload, -⟩ | ⟨-, hh, -⟩ | ⟨-, -, -, rfl⟩ | ⟨-, -, rfl⟩ | ⟨-, -, rfl⟩ | ⟨-, -, -, rfl⟩ |
      ⟨hsteps, i, hfetch, hexec⟩ := step_cases s t h
    · cases hhalt
    · cases hrun.symm.trans hload
    · cases hrun.symm.trans hh
    · rw [State.atStep_runState, hrun] at hhalt; cases hhalt
    · cases hcode
    · cases hcode
    · cases hcode
    · obtain ⟨hsame, -⟩ | ⟨-, hkind, -⟩ := execRaisesOnlyItsKind i _ t hexec
      · simp [hsame, hrun] at hhalt
      · obtain ⟨nnn, rfl⟩ : ∃ nnn, i = .jp nnn := by
          have hsix : raisesCode i = 6 := hkind.symm.trans hcode
          cases i with
          | jp nnn => exact ⟨nnn, rfl⟩
          | _ => cases hsix
        refine ⟨hsteps, nnn, hfetch, ?_⟩
        by_contra hother
        cases (exec_jp_other (by rw [hback]; exact hother)).symm.trans hexec
        simp [hrun] at hhalt
  · rintro ⟨hsteps, nnn, hfetch, hself⟩
    cases (step_of_fetches hsteps hfetch).symm.trans h |>.symm.trans (exec_jp_self (by rw [hback]; exact hself))
    exact ⟨rfl, rfl⟩

/-! ### Runs -/

/-- A run of `m` edges and then of `n` more. -/
theorem State.reaches_add {s t u : State} {m n : Nat} (hst : s.reaches m t) (htu : t.reaches n u) : s.reaches (m + n) u := by
  induction m generalizing s with
  | zero =>
    obtain rfl := (State.reaches_zero s t).mp hst
    rwa [Nat.zero_add]
  | succ m ih =>
    obtain ⟨s1, hstep, hreach⟩ := (State.reaches_succ s t m).mp hst
    rw [Nat.add_right_comm]
    exact (State.reaches_succ s u (m + n)).mpr ⟨s1, hstep, ih hreach⟩

theorem State.reaches_one {s t : State} (h : step s = .next t) : s.reaches 1 t :=
  (State.reaches_succ s t 0).mpr ⟨t, h, (State.reaches_zero t t).mpr rfl⟩

/-- Log 2: `n` edges from now a state is reached, and the edge from it takes sample `n`. -/
theorem State.exists_reaches_sampleAt (s : State) (n : Nat) : ∃ t, s.reaches n t ∧ t.nextPins = s.sampleAt n := by
  induction n generalizing s with
  | zero => exact ⟨s, (State.reaches_zero s s).mpr rfl, State.nextPins_eq_sampleAt s⟩
  | succ n ih =>
    obtain ⟨u, hu⟩ := step_next s
    obtain ⟨hscript, hcycle⟩ := step_advances hu
    obtain ⟨t, hreach, hpins⟩ := ih u
    exact ⟨t, (State.reaches_succ s t n).mpr ⟨u, hu, hreach⟩, hpins.trans (State.sampleAt_tail s u hscript hcycle n)⟩

/-- R209: past the script, a strobe that the free sample takes from some gaps is high at some edge from any edge on. -/
theorem State.exists_strobe_of_free (s : State) {pin : Pins → Bool} {gap : Nat → Nat}
    (hpin : ∀ c, pin (freePins c) = strobe gap c) (n : Nat) : ∃ m, n ≤ m ∧ pin (s.sampleAt m) = true := by
  obtain ⟨c, hc, hstrobe⟩ := strobe_fair gap (s.cycle + max n s.script.length)
  have hsplit : s.cycle + (c - s.cycle) = c := by omega
  refine ⟨c - s.cycle, by omega, ?_⟩
  rw [State.sampleAt_free s _ (by omega), hsplit, hpin, hstrobe]

theorem State.fairTicks (s : State) : s.FairTicks := s.exists_strobe_of_free (pin := Pins.tick60) fun _ => rfl

theorem State.fairSteps (s : State) : s.FairSteps := s.exists_strobe_of_free (pin := Pins.step) fun _ => rfl

/-- Settles O56: the samples by `State.exists_reaches_sampleAt`, the fairness of both free strobes by `strobe_fair`. -/
theorem ticksAndStepsComeInfinitelyOften : Obligations.TicksAndStepsComeInfinitelyOften := by
  unfold Obligations.TicksAndStepsComeInfinitelyOften
  exact fun s => ⟨s.exists_reaches_sampleAt, s.fairTicks, s.fairSteps⟩

/-! ### The countdown of DT -/

/-- R187: `n` edges with the tick strobe alone take `n` from DT, down to 0. -/
theorem State.reaches_of_tickScript {s : State} {n : Nat} {rest : List Pins} (hrun : s.runState = .run)
    (hscript : s.script = tickScript n ++ rest) :
    ∃ t, s.reaches n t ∧ t.dt.toNat = s.dt.toNat - n ∧ t.script = rest ∧
      ChangesOnly (fun p => p.isEdge ∨ p = .delayTimer) s t := by
  induction n generalizing s with
  | zero => exact ⟨s, (State.reaches_zero s s).mpr rfl, rfl, hscript, .refl _ s⟩
  | succ n ih =>
    have hcons : s.script = { Pins.low with tick60 := true } :: (tickScript n ++ rest) := hscript
    have hpins : s.nextPins = { Pins.low with tick60 := true } := by unfold State.nextPins; rw [hcons]
    have hstep : step s = .next s.atStep :=
      step_of_run_of_no_step (congrArg Pins.rst hpins) hrun (congrArg Pins.step hpins)
    have hdt : s.atStep.dt.toNat = s.dt.toNat - 1 := by
      rw [State.toNat_atStep_dt, if_pos (congrArg Pins.tick60 hpins)]
    obtain ⟨t, hreach, hcount, hrest, hframe⟩ := ih (s := s.atStep) (by simpa using hrun) (by rw [State.atStep_script, hcons]; rfl)
    exact ⟨t, (State.reaches_succ s t n).mpr ⟨_, hstep, hreach⟩, by omega, hrest, (ChangesOnly.atStep s).trans hframe⟩

/-- The premise of the countdown: a run from `s` stays in RUN for ever and takes no step of LD DT, Vx. -/
def State.RunsWithoutDelayWrite (s : State) : Prop :=
  ∀ n t, s.reaches n t → t.runState = .run ∧ ∀ x, ¬ (t.steps ∧ t.fetches (.ldDTVx x))

theorem State.RunsWithoutDelayWrite.of_reaches {s t : State} {n : Nat} (h : s.RunsWithoutDelayWrite) (hst : s.reaches n t) :
    t.RunsWithoutDelayWrite :=
  fun m u htu => h (n + m) u (State.reaches_add hst htu)

/-- Along such a run DT does not rise. -/
theorem State.RunsWithoutDelayWrite.dt_le {s t : State} {n : Nat} (h : s.RunsWithoutDelayWrite) (hst : s.reaches n t) :
    t.dt.toNat ≤ s.dt.toNat := by
  induction n generalizing s with
  | zero => rw [(State.reaches_zero s t).mp hst]
  | succ n ih =>
    obtain ⟨u, hu, hut⟩ := (State.reaches_succ s t n).mp hst
    obtain ⟨-, hno⟩ := h 0 s ((State.reaches_zero s s).mpr rfl)
    exact (ih (h.of_reaches (State.reaches_one hu)) hut).trans (delayTimerNeverRises s u hu hno)

/-- R209: by fairness such a run comes to a tick, after which DT is lower than before, or 0. -/
theorem State.RunsWithoutDelayWrite.exists_lower_dt {s : State} (h : s.RunsWithoutDelayWrite) :
    ∃ n t, s.reaches n t ∧ t.dt.toNat ≤ s.dt.toNat - 1 := by
  obtain ⟨m, -, htick⟩ := s.fairTicks 0
  obtain ⟨u, hreach, hpins⟩ := s.exists_reaches_sampleAt m
  obtain ⟨t, hstep⟩ := step_next u
  obtain ⟨hrun, hno⟩ := h m u hreach
  have hbefore : u.dt.toNat ≤ s.dt.toNat := h.dt_le hreach
  have hedge : t.dt.toNat ≤ u.dt.toNat - 1 := by
    have hle := step_dt_le_atStep hstep hrun hno
    rwa [State.toNat_atStep_dt, if_pos (by rw [hpins, htick])] at hle
  exact ⟨m + 1, t, State.reaches_add hreach (State.reaches_one hstep), by omega⟩

/-- By induction on DT: such a run brings it to 0. -/
theorem State.RunsWithoutDelayWrite.exists_dt_zero {s : State} (h : s.RunsWithoutDelayWrite) :
    ∃ n t, s.reaches n t ∧ t.dt = 0x00 := by
  by_cases hzero : s.dt.toNat = 0
  · exact ⟨0, s, (State.reaches_zero s s).mpr rfl, BitVec.eq_of_toNat_eq hzero⟩
  · obtain ⟨m, u, hreach, hlower⟩ := h.exists_lower_dt
    obtain ⟨n, t, hreach', hdt⟩ := (h.of_reaches hreach).exists_dt_zero
    exact ⟨m + n, t, State.reaches_add hreach hreach', hdt⟩
termination_by s.dt.toNat
decreasing_by omega

/-- Settles O18: the ticks of a script by `State.reaches_of_tickScript`, those of a fair run by induction on DT. -/
theorem ticksCountDown : Obligations.TicksCountDown := by
  unfold Obligations.TicksCountDown
  exact ⟨fun n s rest hrun hscript => State.reaches_of_tickScript hrun hscript,
    fun s h => State.RunsWithoutDelayWrite.exists_dt_zero h⟩

end Sys2Proof.Machine

/-! PROOFS. The loader pins outside LOAD (10_state.md R22, 60_exceptions.md R182, 70_reset_and_hazards.md R202): an edge outside LOAD
reads no pin but `rst`, `step`, `tick60`, `rnd` and `keys`, so it commutes with replacing the others. -/

namespace Sys2Proof.Machine

/-- The state with other samples of the pins. -/
def State.withPins (s : State) (p : Pins) : State := { s with pins := p }

theorem State.withPins_same (s : State) (p : Pins) {q : Part} (hq : q ≠ .platform) : q.same s (s.withPins p) := by
  cases q with
  | platform => exact absurd rfl hq
  | callStack => exact ⟨rfl, rfl⟩
  | control => exact ⟨rfl, rfl, rfl⟩
  | _ => rfl

/-! ### The operations read no pin -/

theorem State.skipIf_withPins (s : State) (p : Pins) (c : Bool) : (s.withPins p).skipIf c = (s.skipIf c).withPins p := by
  cases c <;> rfl

theorem State.tick_withPins (s : State) (p : Pins) : (s.withPins p).tick = s.tick.withPins p := by
  unfold State.tick
  exact (apply_ite (State.withPins · p) (s.dt = 0) s (s.setDt (s.dt - 1))).symm

theorem State.storeBytes_withPins (s : State) (p : Pins) (a : Nat) (bs : List Byte) :
    (s.withPins p).storeBytes a bs = (s.storeBytes a bs).withPins p := by
  induction bs generalizing s a with
  | nil => rfl
  | cons b bs ih =>
    unfold State.storeBytes
    by_cases ha : a ≤ 0xFFF
    · rw [State.memWrite_valid s a b ha, State.memWrite_valid _ a b ha]
      exact ih { s with mem := Memory.write s.mem a b } (a + 1)
    · rw [State.memWrite_invalid s a b (by omega), State.memWrite_invalid _ a b (by omega)]
      rfl

theorem State.loadRegsFrom_withPins (s : State) (p : Pins) (base : Nat) (ks : List Reg) :
    (s.withPins p).loadRegsFrom base ks = (s.loadRegsFrom base ks).withPins p := by
  induction ks generalizing s with
  | nil => rfl
  | cons k ks ih =>
    unfold State.loadRegsFrom
    by_cases ha : base + k.val ≤ 0xFFF
    · rw [State.memRead_valid s _ ha, State.memRead_valid _ _ ha]
      exact ih (s.setV k (Memory.read s.mem (base + k.val)))
    · rw [State.memRead_invalid s _ (by omega), State.memRead_invalid _ _ (by omega)]
      rfl

/-! ### Execute and the engine's step -/

/-- R125, R166: Execute reads no pin but `rnd` and `keys`. -/
theorem exec_withPins {i : Instr} {s t : State} {p : Pins} (hrnd : p.rnd = s.pins.rnd) (hkeys : p.keys = s.pins.keys)
    (h : exec i s = .next t) : exec i (s.withPins p) = .next (t.withPins p) := by
  have hin : (s.withPins p).keysIn = s.keysIn := by simp [State.keysIn, State.withPins, hkeys]
  cases i with
  | jp nnn =>
    by_cases hself : zextAddr nnn = s.pc - 2
    · cases (exec_jp_self hself).symm.trans h; exact exec_jp_self (s := s.withPins p) hself
    · cases (exec_jp_other hself).symm.trans h; exact exec_jp_other (s := s.withPins p) hself
  | call nnn =>
    by_cases hroom : s.sp.val < 16
    · cases (exec_call_room nnn hroom).symm.trans h; exact exec_call_room nnn (s := s.withPins p) hroom
    · have hfull : s.sp.val = 16 := by omega
      cases (exec_call_full nnn hfull).symm.trans h; exact exec_call_full nnn (s := s.withPins p) hfull
  | ret =>
    by_cases hempty : s.sp.val = 0
    · cases (exec_ret_empty hempty).symm.trans h; exact exec_ret_empty (s := s.withPins p) hempty
    · have hentry : s.sp.val = (⟨s.sp.val - 1, by omega⟩ : Fin 16).val + 1 := by simp only; omega
      cases (exec_ret_entry hentry).symm.trans h; exact exec_ret_entry (s := s.withPins p) hentry
  | drw x y n =>
    by_cases hfit : n.val = 0 ∨ s.i.toNat + n.val ≤ 0x1000
    · cases (execDrw_reads x y n s hfit).symm.trans h; exact execDrw_reads x y n (s.withPins p) hfit
    · have hover : n.val ≠ 0 ∧ 0x1000 < s.i.toNat + n.val := by omega
      cases (execDrw_faults x y n s hover).symm.trans h; exact execDrw_faults x y n (s.withPins p) hover
  | ldVxK x =>
    by_cases hnone : s.keysIn = 0x0000
    · cases (exec_ldVxK_none x hnone).symm.trans h; exact exec_ldVxK_none x (hin.trans hnone)
    · cases (exec_ldVxK_down x hnone).symm.trans h
      rw [exec_ldVxK_down x (hin ▸ hnone), hin]; rfl
  | rnd x kk => cases h; rw [← hrnd]; rfl
  | skp | sknp => cases h; rw [← hin]; exact congrArg _ (State.skipIf_withPins s p _)
  | seByte | sneByte | seReg | sneReg => cases h; exact congrArg _ (State.skipIf_withPins s p _)
  | ldB | storeRegs => cases h; exact congrArg _ (State.storeBytes_withPins s p _ _)
  | loadRegs x => cases h; exact congrArg _ (State.loadRegsFrom_withPins s p _ _)
  | _ => cases h; rfl

/-- R80: neither does a step of the engine. -/
theorem engineStep_withPins {s t : State} {p : Pins} (hrnd : p.rnd = s.pins.rnd) (hkeys : p.keys = s.pins.keys)
    (h : engineStep s = .next t) : engineStep (s.withPins p) = .next (t.withPins p) := by
  have hfetch : (s.withPins p).fetch = s.fetch := by simp only [State.fetch_eq]; rfl
  have hconfig : (s.withPins p).config = s.config := rfl
  rw [engineStep_eq] at h ⊢
  rw [hfetch, hconfig]
  cases hf : s.fetch with
  | error f => rw [hf] at h; cases h; rfl
  | ok w =>
    simp only [hf] at h ⊢
    cases hd : decode s.config.sysPolicy w with
    | error e => rw [hd] at h; cases h; rfl
    | ok i => rw [hd] at h; exact exec_withPins (s := s.setPc (s.pc + 2)) hrnd hkeys h

/-! ### The edge -/

/-- R80: an edge in RUN reads `step` and `tick60` beside the pins that Execute reads. -/
theorem runEdge_withPins {s t : State} {p : Pins} (hstep : p.step = s.pins.step) (htick : p.tick60 = s.pins.tick60)
    (hrnd : p.rnd = s.pins.rnd) (hkeys : p.keys = s.pins.keys) (h : runEdge s = .next t) :
    runEdge (s.withPins p) = .next (t.withPins p) := by
  obtain ⟨u, hu⟩ : ∃ u, (if s.pins.tick60 then s.tick else s) = u := ⟨_, rfl⟩
  have hupins : u.pins = s.pins := by rw [← hu]; split <;> simp
  have hpins : (s.withPins p).pins = p := rfl
  have hu' : (if p.tick60 then (s.withPins p).tick else s.withPins p) = u.withPins p := by
    rw [htick, State.tick_withPins, ← hu]
    split <;> rfl
  simp only [runEdge, hu] at h
  simp only [runEdge, hpins, hu', hstep]
  split at h
  case isTrue hs => rw [if_pos hs]; exact engineStep_withPins (hupins ▸ hrnd) (hupins ▸ hkeys) h
  case isFalse hs => rw [if_neg hs, Host.Outcome.next.inj h]

/-- R182, R202: outside LOAD an edge reads no pin of the loader and no `start`. -/
theorem edgeBody_withPins {s t : State} {p : Pins} (hload : s.runState ≠ .load) (hrst : p.rst = s.pins.rst)
    (hstep : p.step = s.pins.step) (htick : p.tick60 = s.pins.tick60) (hrnd : p.rnd = s.pins.rnd)
    (hkeys : p.keys = s.pins.keys) (h : edgeBody s = .next t) : edgeBody (s.withPins p) = .next (t.withPins p) := by
  have hpins : (s.withPins p).pins = p := rfl
  have hrun : (s.withPins p).runState = s.runState := rfl
  unfold edgeBody at h ⊢
  rw [hpins, hrst, hrun]
  split at h
  case isTrue hr => rw [if_pos hr]; cases h; rfl
  case isFalse hr =>
    rw [if_neg hr]
    cases hs : s.runState with
    | load => exact absurd hs hload
    | run => rw [hs] at h; exact runEdge_withPins hstep htick hrnd hkeys h
    | halt => rw [hs] at h; cases h; rfl

/-- Settles O55: the second edge samples the pins of the first but for the loader's, and `edgeBody_withPins` carries the
difference to the end of the edge, where it is one of the model's own fields. -/
theorem loaderPinsIgnoredOutsideLoad : Obligations.LoaderPinsIgnoredOutsideLoad := by
  unfold Obligations.LoaderPinsIgnoredOutsideLoad
  intro s p rest start ldWe ldAddr ldData hload hrst hscript
  have hpins : s.sampleInputs.pins = p := by rw [State.sampleInputs_pins, State.nextPins, hscript]
  have hsample : ∀ p' : Pins, ({ s with script := p' :: rest } : State).sampleInputs = s.sampleInputs.withPins p' := fun p' => by
    simp [State.sampleInputs, State.withPins, State.nextPins, hscript]
  obtain ⟨t, ht⟩ := step_next s
  have hedge : step { s with script := { p with start := start, ldWe := ldWe, ldAddr := ldAddr, ldData := ldData } :: rest } =
      .next (t.withPins { p with start := start, ldWe := ldWe, ldAddr := ldAddr, ldData := ldData }) := by
    refine (congrArg edgeBody (hsample _)).trans (edgeBody_withPins hload ?_ ?_ ?_ ?_ ?_ ht) <;> rw [hpins]
  exact ⟨t, _, ht, hedge, fun q hq => State.withPins_same t _ hq⟩

end Sys2Proof.Machine
